-- ==== Sys2Proof/Word.lean ====
section
/-! DEFINITION. The word types of the block: 8-bit fields and key registers (spec/30_encoding.md R100, spec/10_state.md R32), 32-bit commands and responses (R100, R111), 16-bit response data (R111). -/

namespace Sys2Proof

/-- One 8-bit command field or key register (R100, R32). -/
abbrev Byte := BitVec 8

/-- One command or response word (R100, R111). -/
abbrev Word32 := BitVec 32

/-- The `data` field of a response (R111). -/
abbrev Data16 := BitVec 16

end Sys2Proof
end

