-- ==== Sys2Proof/Syntax.lean ====
section
/-! DEFINITION. The command set: one constructor per row of spec/opcode_table.json (spec/30_encoding.md R105). Fields keep their raw 8-bit values (R100); the fields R105 marks "0" have no place here, since the decoder rejects any other value in them (R108). -/

namespace Sys2Proof

/-- The twenty commands (R105), their operands in the order of the fields a, b, c. -/
inductive Instr where
  /-- 0x00 `NOP` (R300). -/
  | nop
  /-- 0x01 `SRESET` (R301). -/
  | sreset
  /-- 0x02 `START machine, dir` (R302). -/
  | start (machine dir : Byte)
  /-- 0x03 `END` (R303). -/
  | endRun
  /-- 0x04 `SYMBOL symbol` (R304). -/
  | symbol (symbol : Byte)
  /-- 0x05 `READ group, slot` (R305). -/
  | read (group slot : Byte)
  /-- 0x10 `ENG.ROTOR slot, rotor` (R180). -/
  | engRotor (slot rotor : Byte)
  /-- 0x11 `ENG.REFL reflector` (R181). -/
  | engRefl (reflector : Byte)
  /-- 0x12 `ENG.POS slot, letter` (R182). -/
  | engPos (slot letter : Byte)
  /-- 0x13 `ENG.RING slot, letter` (R183). -/
  | engRing (slot letter : Byte)
  /-- 0x14 `ENG.PLUG string, index, letter` (R184). -/
  | engPlug (string index letter : Byte)
  /-- 0x20 `M209.KEY wheel, letter` (R220). -/
  | m209Key (wheel letter : Byte)
  /-- 0x21 `M209.PIN wheel, pin, bit` (R221). -/
  | m209Pin (wheel pin bit : Byte)
  /-- 0x22 `M209.LUG`, fields in word order: register A, bar, register B (R222). -/
  | m209Lug (regA bar regB : Byte)
  /-- 0x30 `SIG.CROT slot, rotor` (R260). -/
  | sigCrot (slot rotor : Byte)
  /-- 0x31 `SIG.KROT slot, rotor` (R261). -/
  | sigKrot (slot rotor : Byte)
  /-- 0x32 `SIG.IROT slot, rotor` (R262). -/
  | sigIrot (slot rotor : Byte)
  /-- 0x33 `SIG.IND slot, letter` (R263). -/
  | sigInd (slot letter : Byte)
  /-- 0x34 `SIG.KPOS slot, letter` (R264). -/
  | sigKpos (slot letter : Byte)
  /-- 0x35 `SIG.IPOS slot, digit` (R265). -/
  | sigIpos (slot digit : Byte)
  deriving DecidableEq, Repr

end Sys2Proof
end

