-- ==== Sys2Proof/Decode.lean ====
section
/-! DEFINITION. The decoder and the encoder (spec/30_encoding.md R100, R105, R108, R110), and the byte lanes of a word (spec/20_memory.md R84). -/

namespace Sys2Proof

/-- Why a decoder gives no command. Each is reported as `E_ILLEGAL` (R108). -/
inductive DecodeError where
  /-- A reserved opcode: 0x06–0x0F, 0x15–0x1F, 0x23–0x2F, 0x36–0xFF (R108). -/
  | reservedOpcode
  /-- A known opcode with a nonzero value in a field R105 marks "0" (R108). -/
  | nonzeroField
  /-- Not exactly four bytes: every command is exactly 32 bits (R110). -/
  | notOneWord
  deriving DecidableEq, Repr

/-- `op = w[31:24]` (R100). -/
def opField (w : Word32) : Byte := w.extractLsb' 24 8

/-- `a = w[23:16]` (R100). -/
def aField (w : Word32) : Byte := w.extractLsb' 16 8

/-- `b = w[15:8]` (R100). -/
def bField (w : Word32) : Byte := w.extractLsb' 8 8

/-- `c = w[7:0]` (R100). -/
def cField (w : Word32) : Byte := w.extractLsb' 0 8

/-- `op ++ a ++ b ++ c`, a in the high bits (R11, R100). -/
def packWord (op a b c : Byte) : Word32 := op ++ a ++ b ++ c

/-- The command `i` where the must-be-zero fields `mustBeZero` are all zero (R108). -/
def withZeroFields (mustBeZero : List Byte) (i : Instr) : Except DecodeError Instr :=
  if mustBeZero.all (· == 0#8) then .ok i else .error .nonzeroField

/-- The command with opcode `op` and fields `a`, `b`, `c`: one line per row of R105. The opcode alone selects it
(R100). -/
def decodeFields (op : Nat) (a b c : Byte) : Except DecodeError Instr :=
  match op with
  | 0x00 => withZeroFields [a, b, c] .nop
  | 0x01 => withZeroFields [a, b, c] .sreset
  | 0x02 => withZeroFields [c] (.start a b)
  | 0x03 => withZeroFields [a, b, c] .endRun
  | 0x04 => withZeroFields [a, b] (.symbol c)
  | 0x05 => withZeroFields [c] (.read a b)
  | 0x10 => withZeroFields [a] (.engRotor b c)
  | 0x11 => withZeroFields [a, b] (.engRefl c)
  | 0x12 => withZeroFields [a] (.engPos b c)
  | 0x13 => withZeroFields [a] (.engRing b c)
  | 0x14 => .ok (.engPlug a b c)
  | 0x20 => withZeroFields [a] (.m209Key b c)
  | 0x21 => .ok (.m209Pin a b c)
  | 0x22 => .ok (.m209Lug a b c)
  | 0x30 => withZeroFields [a] (.sigCrot b c)
  | 0x31 => withZeroFields [a] (.sigKrot b c)
  | 0x32 => withZeroFields [a] (.sigIrot b c)
  | 0x33 => withZeroFields [a] (.sigInd b c)
  | 0x34 => withZeroFields [a] (.sigKpos b c)
  | 0x35 => withZeroFields [a] (.sigIpos b c)
  | _ => .error .reservedOpcode

/-- The decoder: total on every 32-bit word (R110). -/
def decode (w : Word32) : Except DecodeError Instr :=
  decodeFields (opField w).toNat (aField w) (bField w) (cField w)

/-- The byte lanes of a word, lane 0 first: lane 0 carries bits [7:0] and lane 3 bits [31:24] (R84). -/
def wordLanes (w : Word32) : List Byte := [cField w, bField w, aField w, opField w]

/-- The word whose byte lanes these are (R84). -/
def wordOfLanes (lane0 lane1 lane2 lane3 : Byte) : Word32 := packWord lane3 lane2 lane1 lane0

/-- The decoder on bytes, in lane order: total on any list, and anything but one word is rejected by name (R110). -/
def decodeBytes : List Byte → Except DecodeError Instr
  | [lane0, lane1, lane2, lane3] => decode (wordOfLanes lane0 lane1 lane2 lane3)
  | _ => .error .notOneWord

/-- The encoder: the word of each command, from the table of R105 and the syntax table of R113. -/
def encode : Instr → Word32
  | .nop => packWord 0x00#8 0#8 0#8 0#8
  | .sreset => packWord 0x01#8 0#8 0#8 0#8
  | .start machine dir => packWord 0x02#8 machine dir 0#8
  | .endRun => packWord 0x03#8 0#8 0#8 0#8
  | .symbol symbol => packWord 0x04#8 0#8 0#8 symbol
  | .read group slot => packWord 0x05#8 group slot 0#8
  | .engRotor slot rotor => packWord 0x10#8 0#8 slot rotor
  | .engRefl reflector => packWord 0x11#8 0#8 0#8 reflector
  | .engPos slot letter => packWord 0x12#8 0#8 slot letter
  | .engRing slot letter => packWord 0x13#8 0#8 slot letter
  | .engPlug string index letter => packWord 0x14#8 string index letter
  | .m209Key wheel letter => packWord 0x20#8 0#8 wheel letter
  | .m209Pin wheel pin bit => packWord 0x21#8 wheel pin bit
  | .m209Lug regA bar regB => packWord 0x22#8 regA bar regB
  | .sigCrot slot rotor => packWord 0x30#8 0#8 slot rotor
  | .sigKrot slot rotor => packWord 0x31#8 0#8 slot rotor
  | .sigIrot slot rotor => packWord 0x32#8 0#8 slot rotor
  | .sigInd slot letter => packWord 0x33#8 0#8 slot letter
  | .sigKpos slot letter => packWord 0x34#8 0#8 slot letter
  | .sigIpos slot digit => packWord 0x35#8 0#8 slot digit

/-- The word whose bits are `w`, numbered as the opcode table numbers them; every bit from `nbits` up is 0. -/
def tableWord (nbits w : Nat) : Word32 := BitVec.ofNat 32 (w % 2 ^ nbits)

/-- What this decoder reads from an instruction whose bits are `w`: its word is laid out in byte lanes (R84) and
decoded. -/
def decodeTableWord (nbits w : Nat) : Option Instr := (decodeBytes (wordLanes (tableWord nbits w))).toOption

end Sys2Proof
end

