-- ==== Sys2Proof/Config.lean ====
section
/-! DEFINITION. What an implementation fixes: the constants and the OPEN parameters of spec/00_scope.md R8, their well-formedness (R9, R10), and the opaque constants no proof can see through (the parameter set of the machine at reset, and the free values of discarded registers). -/

namespace Sys2Proof

/-- An index into the letter alphabet A..Z (R8 `NL` = 26, R14, R101). -/
abbrev Letter := Fin 26

/-- An index into the digit alphabet 0..9 (R8 `ND` = 10, R14, R101). -/
abbrev Digit := Fin 10

/-- A wiring of an alphabet of n symbols: entry i is the index of `W[i]` (R14). -/
abbrev Wiring (n : Nat) := Vector (Fin n) n

/-- The key-register value "no key supplied" (R19, R32). -/
def unsetKey : Byte := 0xFF#8

/-- `M_LEN[w]`: the length of wheel w (R8); 0 for a wheel that does not exist. -/
def wheelLength : Nat → Nat
  | 0 => 26
  | 1 => 25
  | 2 => 23
  | 3 => 21
  | 4 => 19
  | 5 => 17
  | _ => 0

/-- `M_OFFSET[w]`: the active-pin offset of wheel w (R8, R231). -/
def wheelOffset : Nat → Nat
  | 0 => 15
  | 1 => 14
  | 2 => 13
  | 3 => 12
  | 4 => 11
  | 5 => 10
  | _ => 0

/-- `S_MARKERS`: the maze input letters F, G, H, I (R8). -/
def mazeMarkers : Vector Letter 4 := #v[5, 6, 7, 8]

/-- One pin bit for every position of every wheel: 26+25+23+21+19+17 = 131 bits (R35). The type of `MPIN`, of its
snapshot `PS` (R40) and of the parameter `M_DEFAULT_PINS` (R8). -/
structure PinBank where
  w0 : Vector Bool 26
  w1 : Vector Bool 25
  w2 : Vector Bool 23
  w3 : Vector Bool 21
  w4 : Vector Bool 19
  w5 : Vector Bool 17
  deriving DecidableEq, Repr, Inhabited

/-- The OPEN parameters of R8, arguments of the model: every statement about all states quantifies over them (log 2). -/
structure Parameters where
  /-- `E_WIRING[r]`, r < `E_ROTORS` = 5. -/
  eWiring : Vector (Wiring 26) 5
  /-- `E_NOTCH[r]`, in 0..25 by its type. -/
  eNotch : Vector Letter 5
  /-- `E_REFL[f]`; the list's length is `E_REFLECTORS`. -/
  eRefl : List (Wiring 26)
  /-- `M_ALPHA[w]`: the letters of wheel w, in wheel order. -/
  mAlpha : Vector (List Letter) 6
  /-- `M_DEFAULT_PINS[w][i]`. -/
  mDefaultPins : PinBank
  /-- `S_WIRING[r]`, r < `S_LARGE` = 10. -/
  sWiring : Vector (Wiring 26) 10
  /-- `S_IWIRING[r]`, r < `S_SMALL` = 5. -/
  sIWiring : Vector (Wiring 10) 5
  /-- `S_CLASS[l]`. -/
  sClass : Vector Digit 26
  /-- `CORE_BASE`, the bus address of the command port (R83). -/
  coreBase : Nat
  deriving DecidableEq, Repr, Inhabited

/-- Every symbol appears exactly once (R9). -/
abbrev Wiring.IsPermutation {n : Nat} (w : Wiring n) : Prop := w.toList.Nodup

/-- A permutation that is its own inverse and moves every letter (R9). -/
abbrev Wiring.IsReflector (w : Wiring 26) : Prop :=
  w.IsPermutation ∧ ∀ i : Letter, w[w[i]] = i ∧ w[i] ≠ i

/-- The conditions of R9, R10 and R83 on a parameter set (those a type already states, such as the range of a notch, are
not repeated). -/
abbrev Parameters.WellFormed (p : Parameters) : Prop :=
  (∀ r : Fin 5, p.eWiring[r].IsPermutation) ∧
  (∀ r : Fin 10, p.sWiring[r].IsPermutation) ∧
  (∀ r : Fin 5, p.sIWiring[r].IsPermutation) ∧
  (∀ f : Fin p.eRefl.length, Wiring.IsReflector p.eRefl[f]) ∧
  (∀ w : Fin 6, p.mAlpha[w].length = wheelLength w ∧ p.mAlpha[w].Nodup) ∧
  (∀ l : Letter, p.sClass[l] ≠ 0) ∧
  p.eRefl ≠ [] ∧
  p.coreBase % 8 = 0

/-- "A model refuses a configuration that breaks one of these" (R9, ID25): the parameter set, or none where it is
ill-formed. -/
def Parameters.accept (p : Parameters) : Option Parameters := if p.WellFormed then some p else none

/-- The parameter set the source does not give (R7, R8 OPEN, D6): no body, so no proof can see what it is (log 3). -/
opaque Config.openParameters : Parameters

/-- A free value of w bits for register number `register` at the `serial`-th discard (R38, ID13): no body (log 5). -/
opaque Config.freeBits (w serial register : Nat) : BitVec w

end Sys2Proof
end

