-- ==== Sys2Proof/Machine/State.lean ====
section
/-! DEFINITION. The state of the block (spec/10_state.md R30–R41, spec/20_memory.md R83), the host's waiting accesses, the ways a step can stop, and the state after reset (R78, spec/70_reset_and_hazards.md R370). -/

namespace Sys2Proof.Machine

/-- `MODE` (R30). The values 5, 6 and 7 are never held (ID7), so the type omits them. -/
inductive Mode where
  /-- 0 `IDLE`: no run. -/
  | idle
  /-- 1 `ENIGMA`: an Enigma run. -/
  | enigma
  /-- 2 `M209`: an M-209 run. -/
  | m209
  /-- 3 `SIGABA_ENC`: a SIGABA run in the encode direction. -/
  | sigabaEnc
  /-- 4 `SIGABA_DEC`: a SIGABA run in the decode direction. -/
  | sigabaDec
  deriving DecidableEq, Repr, Inhabited

/-- The key registers (R32–R37): raw 8-bit values and one-bit pins. They persist across runs. -/
structure KeyRegs where
  /-- `EROT[s]`: the rotor of Enigma key slot s (R33). -/
  erot : Vector Byte 3
  /-- `EREF`: the reflector (R33). -/
  eref : Byte
  /-- `EPOS[s]`: the starting position of key slot s (R33). -/
  epos : Vector Byte 3
  /-- `ERING[s]`: the ring setting of key slot s (R33). -/
  ering : Vector Byte 3
  /-- `EPLUG[k][i]`: letter i of plug string k (R33). -/
  eplug : Vector (Vector Byte 10) 2
  /-- `MKEY[w]`: the wheel-key letter of M-209 wheel w (R34). -/
  mkey : Vector Byte 6
  /-- `MPIN[w][i]`: the pins (R35). -/
  mpin : PinBank
  /-- `MLUGA[b]`: the first register index of lug bar b (R36). -/
  mluga : Vector Byte 27
  /-- `MLUGB[b]`: the second register index of lug bar b (R36). -/
  mlugb : Vector Byte 27
  /-- `SCROT[j]`: the rotor of SIGABA cipher slot j (R37). -/
  scrot : Vector Byte 5
  /-- `SKROT[j]`: the rotor of control slot j (R37). -/
  skrot : Vector Byte 5
  /-- `SIROT[j]`: the rotor of index slot j (R37). -/
  sirot : Vector Byte 5
  /-- `SIND[j]`: the indicator letter of cipher rotor j (R37). -/
  sind : Vector Byte 5
  /-- `SKPOS[j]`: the starting position of control rotor j (R37). -/
  skpos : Vector Byte 5
  /-- `SIPOS[j]`: the starting position of index rotor j (R37). -/
  sipos : Vector Byte 5
  deriving DecidableEq, Repr, Inhabited

/-- The Enigma working registers (R39). -/
structure EnigmaRegs where
  /-- `EWID[k]`: the catalogue index of the rotor in bank slot k; slot 0 is the fastest. -/
  ewid : Vector (BitVec 3) 3
  /-- `EP[k]`: the position of bank slot k. -/
  ep : Vector (BitVec 5) 3
  /-- `ERID`: the catalogue index of the reflector. -/
  erid : BitVec 8
  /-- `PLUG[l]`: the plugboard image of letter l. -/
  plug : Vector (BitVec 5) 26
  deriving DecidableEq, Repr, Inhabited

/-- The M-209 working registers (R40). -/
structure M209Regs where
  /-- `ACT[w]`: the active-pin counter of wheel w. -/
  act : Vector (BitVec 5) 6
  /-- `PS[w][i]`: the snapshot of the pins. -/
  ps : PinBank
  /-- `LA[b]`: the snapshot of `MLUGA[b]`. -/
  la : Vector (BitVec 3) 27
  /-- `LB[b]`: the snapshot of `MLUGB[b]`. -/
  lb : Vector (BitVec 3) 27
  /-- `MK`: the keystream value of the last symbol; 6 bits (spec/90_conflicts.md C6, log 6). -/
  mkReg : BitVec 6
  deriving DecidableEq, Repr, Inhabited

/-- The SIGABA working registers (R41). -/
structure SigabaRegs where
  /-- `CID[j]`: the catalogue index of cipher rotor j. -/
  cid : Vector (BitVec 4) 5
  /-- `KID[j]`: the catalogue index of control rotor j. -/
  kid : Vector (BitVec 4) 5
  /-- `XID[j]`: the catalogue index of index rotor j. -/
  xid : Vector (BitVec 3) 5
  /-- `CP[j]`: the position of cipher rotor j. -/
  cp : Vector (BitVec 5) 5
  /-- `KP[j]`: the position of control rotor j. -/
  kp : Vector (BitVec 5) 5
  /-- `IP[j]`: the position of index rotor j. -/
  ip : Vector (BitVec 4) 5
  /-- `CAD`: the symbols processed in this run, modulo 676. -/
  cad : BitVec 10
  /-- `ADV`: bit j set when cipher register j advanced on the last symbol. -/
  adv : BitVec 5
  deriving DecidableEq, Repr, Inhabited

/-- What the outside world can do to the block, one at a time (R82, R83, R370). -/
inductive PortEvent where
  /-- One command on the abstract port (R82). -/
  | command (w : Word32)
  /-- A bus write of `size` bytes at byte address `addr` (R83, R85). -/
  | write (addr size : Nat) (data : Word32)
  /-- A bus read of `size` bytes at byte address `addr` (R83, R85). -/
  | read (addr size : Nat)
  /-- A hardware reset (R370). -/
  | hardReset
  deriving DecidableEq, Repr

/-- The whole machine as plain data. `par`, `rdata`, `inbox` and `freeCount` are the model's own fields (logs 1, 2, 5, 9);
the others are the spec's. -/
structure State where
  /-- The implementation parameters (R8): read-only, no step changes them (R42). -/
  par : Parameters
  /-- `MODE` (R30). -/
  mode : Mode
  /-- The key registers (R32–R37). -/
  keys : KeyRegs
  /-- The Enigma working registers (R39). -/
  eng : EnigmaRegs
  /-- The M-209 working registers (R40). -/
  m209 : M209Regs
  /-- The SIGABA working registers (R41). -/
  sig : SigabaRegs
  /-- `RSP`: the last response (R83, R111). -/
  rsp : Word32
  /-- What the last admitted bus read returned (R83). -/
  rdata : Word32
  /-- The host's accesses the block has not taken yet, oldest first (R380). -/
  inbox : List PortEvent
  /-- How often working registers have been discarded (R38): makes their free values fresh. -/
  freeCount : Nat
  deriving DecidableEq, Repr, Inhabited

/-- How the machine stops. -/
inductive Fault where
  /-- Raised by `serve` on a bus access the binding does not admit: wrong width, misaligned, a read of `CMD`, a write of
  `RSP`, or any other offset (R85, ID8: "a model gives such an access no step"). Safe: the model stops where the bus
  gives no meaning. -/
  | busAccessNotAdmitted
  deriving DecidableEq, Repr

/-- Why an instruction has no meaning. -/
inductive Refusal where
  /-- Raised by an arm of `exec` whose instruction has no meaning in this model; no arm does. Safe: the model stops. -/
  | notModelled (mnemonic : String)
  deriving DecidableEq, Repr

/-- The key registers after reset (R78): `UNSET`, but for the pins and the lugs. -/
def KeyRegs.afterReset (par : Parameters) : KeyRegs where
  erot := Vector.replicate 3 unsetKey
  eref := unsetKey
  epos := Vector.replicate 3 unsetKey
  ering := Vector.replicate 3 unsetKey
  eplug := Vector.replicate 2 (Vector.replicate 10 unsetKey)
  mkey := Vector.replicate 6 unsetKey
  mpin := par.mDefaultPins
  mluga := Vector.replicate 27 0#8
  mlugb := Vector.replicate 27 0#8
  scrot := Vector.replicate 5 unsetKey
  skrot := Vector.replicate 5 unsetKey
  sirot := Vector.replicate 5 unsetKey
  sind := Vector.replicate 5 unsetKey
  skpos := Vector.replicate 5 unsetKey
  sipos := Vector.replicate 5 unsetKey

/-- The Enigma working registers after reset: R78 gives none a value; zero is the model's (DESIGN CHOICE, unsafe,
log 4). -/
def EnigmaRegs.afterReset : EnigmaRegs where
  ewid := Vector.replicate 3 0#3
  ep := Vector.replicate 3 0#5
  erid := 0#8
  plug := Vector.replicate 26 0#5

/-- The pins all 0 (DESIGN CHOICE for `PS` after reset, log 4). -/
def clearedPins : PinBank where
  w0 := Vector.replicate 26 false
  w1 := Vector.replicate 25 false
  w2 := Vector.replicate 23 false
  w3 := Vector.replicate 21 false
  w4 := Vector.replicate 19 false
  w5 := Vector.replicate 17 false

/-- The M-209 working registers after reset (DESIGN CHOICE, unsafe, log 4). -/
def M209Regs.afterReset : M209Regs where
  act := Vector.replicate 6 0#5
  ps := clearedPins
  la := Vector.replicate 27 0#3
  lb := Vector.replicate 27 0#3
  mkReg := 0#6

/-- The SIGABA working registers after reset (DESIGN CHOICE, unsafe, log 4). -/
def SigabaRegs.afterReset : SigabaRegs where
  cid := Vector.replicate 5 0#4
  kid := Vector.replicate 5 0#4
  xid := Vector.replicate 5 0#3
  cp := Vector.replicate 5 0#5
  kp := Vector.replicate 5 0#5
  ip := Vector.replicate 5 0#4
  cad := 0#10
  adv := 0#5

/-- The machine with the parameters `par`, right after a hardware reset (R78, R370, R371). -/
def State.resetWith (par : Parameters) : State where
  par := par
  mode := .idle
  keys := KeyRegs.afterReset par
  eng := EnigmaRegs.afterReset
  m209 := M209Regs.afterReset
  sig := SigabaRegs.afterReset
  rsp := 0#32
  rdata := 0#32
  inbox := []
  freeCount := 0

/-- A parameter set that meets R9 and R10, taken where the open one does not: identity wirings and alphabets, a
reflector that reverses the alphabet, every class 1. It stands for no machine (log 3). -/
def nominalParameters : Parameters where
  eWiring := Vector.replicate 5 (Vector.ofFn fun i => i)
  eNotch := Vector.replicate 5 0
  eRefl := [Vector.ofFn fun i => i.rev]
  mAlpha := Vector.ofFn fun w => (List.finRange 26).take (wheelLength w.val)
  mDefaultPins := clearedPins
  sWiring := Vector.replicate 10 (Vector.ofFn fun i => i)
  sIWiring := Vector.replicate 5 (Vector.ofFn fun i => i)
  sClass := Vector.replicate 26 1
  coreBase := 0

/-- The parameters of the machine at `State.reset`: the open set, which the spec does not give (R7, R8). A machine exists
only for a well-formed one (R9), so this is always well formed and is otherwise unconstrained (log 3). -/
def installedParameters : Parameters := (Config.openParameters.accept).getD nominalParameters

/-- The machine right after reset (R78, R370). -/
def State.reset : State := State.resetWith installedParameters

end Sys2Proof.Machine
end

