-- ==== Sys2Proof/Machine/Flags.lean ====
section
/-! DEFINITION. The outcome of a command: its status codes, its response word, and the codes of `MODE`. The block has no flags register and no condition codes: each command's outcome is the status field of its own response (spec/10_state.md R76). This file gives the status codes (spec/60_exceptions.md R340), the response word (spec/30_encoding.md R111) and the codes of `MODE` (R30). -/

namespace Sys2Proof.Machine

/-- The status codes (R340). -/
inductive Status where
  | ok
  | illegal
  | badSlot
  | busy
  | notRunning
  | missingKey
  | unknownRotor
  | unknownReflector
  | badLetter
  | plugConflict
  | wheelKey
  | badLug
  | badDigit
  | badPin
  | badSymbol
  deriving DecidableEq, Repr

/-- The value of a status in response bits [31:24] (R340). -/
def Status.code : Status → Byte
  | .ok => 0x00#8
  | .illegal => 0x01#8
  | .badSlot => 0x02#8
  | .busy => 0x03#8
  | .notRunning => 0x04#8
  | .missingKey => 0x05#8
  | .unknownRotor => 0x06#8
  | .unknownReflector => 0x07#8
  | .badLetter => 0x08#8
  | .plugConflict => 0x09#8
  | .wheelKey => 0x0A#8
  | .badLug => 0x0B#8
  | .badDigit => 0x0C#8
  | .badPin => 0x0D#8
  | .badSymbol => 0x0E#8

/-- The response word: `status[31:24]`, zero, `data[15:0]` (R111). -/
def responseWord (st : Status) (data : Data16) : Word32 := st.code ++ 0#8 ++ data

/-- The `status` field of a response (R111). -/
def responseStatus (w : Word32) : Byte := w.extractLsb' 24 8

/-- The `data` field of a response (R111). -/
def responseData (w : Word32) : Data16 := w.extractLsb' 0 16

/-- The 3-bit value of `MODE` (R30). -/
def Mode.code : Mode → BitVec 3
  | .idle => 0#3
  | .enigma => 1#3
  | .m209 => 2#3
  | .sigabaEnc => 3#3
  | .sigabaDec => 4#3

/-- Whether a SIGABA run is on: `MODE` is `SIGABA_ENC` or `SIGABA_DEC` (R41). -/
def Mode.isSigaba : Mode → Bool
  | .sigabaEnc => true
  | .sigabaDec => true
  | _ => false

end Sys2Proof.Machine
end

