-- ==== Sys2Proof/Machine/Operands.lean ====
section
/-! DEFINITION. Operand arithmetic and operand forms: floor-modulo (spec/00_scope.md R12), the symbols a register holds (R14, spec/30_encoding.md R101), the catalogue entries an index names (spec/10_state.md R42), single pins (R35), and the checks of key values (R32, R107). -/

namespace Sys2Proof.Machine

/-- `a mod n`, floor-modulo: the unique r in 0..n-1 with a - r a multiple of n (R12). -/
def floorMod (n : Nat) [NeZero n] (a : Int) : Fin n :=
  ⟨(a % (n : Int)).toNat, by
    have positive : (0 : Int) < n := Int.natCast_pos.mpr (Nat.pos_of_ne_zero (NeZero.ne n))
    have below := Int.emod_lt_of_pos a positive
    omega⟩

/-- `(v + 1) mod n` in a register of w bits (R145, R148, R149, R150). -/
def advance (n : Nat) {w : Nat} (v : BitVec w) : BitVec w := BitVec.ofNat w ((v.toNat + 1) % n)

/-- The letter a register holds. Every index is reduced before a lookup (R144, log 12). -/
def letterOf {w : Nat} (v : BitVec w) : Letter := floorMod 26 v.toNat

/-- The register value of a letter. -/
def letterBits (l : Letter) : BitVec 5 := BitVec.ofNat 5 l.val

/-- The pin `bank[wheel][pin]` (R35); no wheel or no pin of that number: not active. -/
def pinAt (bank : PinBank) (wheel pin : Nat) : Bool :=
  match wheel with
  | 0 => bank.w0.getD pin false
  | 1 => bank.w1.getD pin false
  | 2 => bank.w2.getD pin false
  | 3 => bank.w3.getD pin false
  | 4 => bank.w4.getD pin false
  | 5 => bank.w5.getD pin false
  | _ => false

/-- `bank[wheel][pin] <- value` (R221); no wheel or no pin of that number: nothing. -/
def setPin (bank : PinBank) (wheel pin : Nat) (value : Bool) : PinBank :=
  match wheel with
  | 0 => { bank with w0 := bank.w0.setIfInBounds pin value }
  | 1 => { bank with w1 := bank.w1.setIfInBounds pin value }
  | 2 => { bank with w2 := bank.w2.setIfInBounds pin value }
  | 3 => { bank with w3 := bank.w3.setIfInBounds pin value }
  | 4 => { bank with w4 := bank.w4.setIfInBounds pin value }
  | 5 => { bank with w5 := bank.w5.setIfInBounds pin value }
  | _ => bank

/-- `E_WIRING[r]` (R8). -/
def enigmaWiring (par : Parameters) (r : BitVec 3) : Wiring 26 := par.eWiring[floorMod 5 r.toNat]

/-- `E_NOTCH[r]` (R8). -/
def enigmaNotch (par : Parameters) (r : BitVec 3) : Letter := par.eNotch[floorMod 5 r.toNat]

/-- `E_REFL[f]` (R8); outside the catalogue, which `START` refuses (R190), the first entry or the identity
(log 12). -/
def enigmaReflector (par : Parameters) (f : BitVec 8) : Wiring 26 :=
  par.eRefl.getD f.toNat (par.eRefl.headD (Vector.ofFn fun i => i))

/-- `S_WIRING[r]` (R8). -/
def largeWiring (par : Parameters) (r : BitVec 4) : Wiring 26 := par.sWiring[floorMod 10 r.toNat]

/-- `S_IWIRING[r]` (R8). -/
def indexWiring (par : Parameters) (r : BitVec 3) : Wiring 10 := par.sIWiring[floorMod 5 r.toNat]

/-- `idx_{M_ALPHA[w]}(l)`: where the letter stands in wheel w's own alphabet (R14, R231). -/
def wheelIndex (par : Parameters) (w : Fin 6) (l : Letter) : Nat := (par.mAlpha[w]).idxOf l

/-- Whether a register of a bank has a value that `bad` rejects. -/
def anyKey {n : Nat} (bank : Vector Byte n) (bad : Byte → Bool) : Bool := bank.toList.any bad

/-- The key is `UNSET` (R32). -/
def isUnset (k : Byte) : Bool := k == unsetKey

/-- The key is not a code below `size`: no catalogue entry, no letter, no digit (R190, R230, R270). -/
def outOfRange (size : Nat) (k : Byte) : Bool := size ≤ k.toNat

/-- The first check that fails, in order, and the code it raises (R190, R343). -/
def firstFailure : List (Bool × Status) → Option Status
  | [] => none
  | (fails, code) :: rest => if fails then some code else firstFailure rest

end Sys2Proof.Machine
end

