-- ==== Sys2Proof/Machine/Ops.lean ====
section
/-! DEFINITION. The named operations over the state: answering a command (spec/00_scope.md R16), raising an error code, writing a key register, ending a run, resetting the block. The block has no trap: raising a code is the whole of "taking an exception", it moves control nowhere, saves nothing, and there is no return from it (spec/60_exceptions.md R347); recovery is the host's (R348). -/

namespace Sys2Proof.Machine

/-- The outcome of one command or event. -/
abbrev Outcome := Host.Outcome State Fault Refusal

/-- The response of a command becomes the content of `RSP` (R83). -/
def State.withResponse (s : State) (st : Status) (data : Data16) : State :=
  { s with rsp := responseWord st data }

/-- `respond(data)`: the command ends with status `OK` and this result (R16). -/
def respond (s : State) (data : Data16) : Outcome := .next (s.withResponse .ok data)

/-- `raise code`: the command ends at once with this status and data 0, and changes no register (R16, R341, R342). -/
def raise (s : State) (code : Status) : Outcome := .next (s.withResponse code 0#16)

/-- The state with other key registers. -/
def State.withKeys (s : State) (keys : KeyRegs) : State := { s with keys := keys }

/-- A key write: the selector check, then the mode check, then the write (R107, R343, and the pseudocode of R180–R184,
R220, R222, R260–R265). -/
def writeKey (s : State) (selectorsInRange : Bool) (keys : KeyRegs) : Outcome :=
  if !selectorsInRange then raise s .badSlot
  else if s.mode ≠ .idle then raise s .busy
  else respond (s.withKeys keys) 0#16

/-- Free Enigma working registers, for the `serial`-th discard (R38, ID13, log 5). -/
def freeEnigmaRegs (serial : Nat) : EnigmaRegs where
  ewid := Vector.ofFn fun k => Config.freeBits 3 serial k
  ep := Vector.ofFn fun k => Config.freeBits 5 serial (10 + k)
  erid := Config.freeBits 8 serial 20
  plug := Vector.ofFn fun l => Config.freeBits 5 serial (30 + l)

/-- Free pins, numbered from `base`. -/
def freePinBank (serial base : Nat) : PinBank where
  w0 := Vector.ofFn fun i => (Config.freeBits 1 serial (base + i)).getLsbD 0
  w1 := Vector.ofFn fun i => (Config.freeBits 1 serial (base + 30 + i)).getLsbD 0
  w2 := Vector.ofFn fun i => (Config.freeBits 1 serial (base + 60 + i)).getLsbD 0
  w3 := Vector.ofFn fun i => (Config.freeBits 1 serial (base + 90 + i)).getLsbD 0
  w4 := Vector.ofFn fun i => (Config.freeBits 1 serial (base + 120 + i)).getLsbD 0
  w5 := Vector.ofFn fun i => (Config.freeBits 1 serial (base + 150 + i)).getLsbD 0

/-- Free M-209 working registers, for the `serial`-th discard (R38, ID13, log 5). -/
def freeM209Regs (serial : Nat) : M209Regs where
  act := Vector.ofFn fun w => Config.freeBits 5 serial (100 + w)
  ps := freePinBank serial 200
  la := Vector.ofFn fun b => Config.freeBits 3 serial (400 + b)
  lb := Vector.ofFn fun b => Config.freeBits 3 serial (430 + b)
  mkReg := Config.freeBits 6 serial 460

/-- Free SIGABA working registers, for the `serial`-th discard (R38, ID13, log 5). -/
def freeSigabaRegs (serial : Nat) : SigabaRegs where
  cid := Vector.ofFn fun j => Config.freeBits 4 serial (500 + j)
  kid := Vector.ofFn fun j => Config.freeBits 4 serial (510 + j)
  xid := Vector.ofFn fun j => Config.freeBits 3 serial (520 + j)
  cp := Vector.ofFn fun j => Config.freeBits 5 serial (530 + j)
  kp := Vector.ofFn fun j => Config.freeBits 5 serial (540 + j)
  ip := Vector.ofFn fun j => Config.freeBits 4 serial (550 + j)
  cad := Config.freeBits 10 serial 560
  adv := Config.freeBits 5 serial 561

/-- `MODE <- IDLE`, and every working register is discarded (R38, R303): what it holds from then on is any value, which
no command can read (ID13). -/
def State.discardRun (s : State) : State :=
  { s with
    mode := .idle
    eng := freeEnigmaRegs s.freeCount
    m209 := freeM209Regs s.freeCount
    sig := freeSigabaRegs s.freeCount
    freeCount := s.freeCount + 1 }

/-- Every register of the block takes its reset value (R78, R301, R370). What is the host's or the model's own stays: the
parameters, the waiting accesses, the value of the last bus read, the counter of free values (logs 2, 10). -/
def State.resetBlock (s : State) : State :=
  { State.resetWith s.par with rdata := s.rdata, inbox := s.inbox, freeCount := s.freeCount }

end Sys2Proof.Machine
end

