-- ==== Sys2Proof/Machine/Engine.lean ====
section
/-! DEFINITION. The rotor stepping engine and the shared primitives (spec/40_rotor_stepping_engine.md): pure functions of the registers they read. None is a command. -/

namespace Sys2Proof.Machine

/-- `idx_Σ(Winv[e])`: the symbol whose wiring image is e (R14, R142). A wiring without one is no permutation, which R9
refuses; floor-modulo keeps the function total (log 13). -/
def wiringIndex {n : Nat} [NeZero n] (w : Wiring n) (e : Fin n) : Fin n := floorMod n (w.toList.idxOf e)

/-- `RotorPass(s, W, p, invert, n)` (R141, R142): p may be any integer. -/
def rotorPass {n : Nat} [NeZero n] (s : Fin n) (w : Wiring n) (p : Int) (invert : Bool) : Fin n :=
  let e := floorMod n (s.val + p)
  let o := if invert then wiringIndex w e else w[e]
  floorMod n (o.val - p)

/-- `StepEnigma(EP, EWID)` (R145): the lines in order, each seeing the results of those before it. -/
def stepEnigma (par : Parameters) (r : EnigmaRegs) : Vector (BitVec 5) 3 :=
  let ep0 := advance 26 r.ep[0]
  let ep1 := if ep0.toNat = (enigmaNotch par r.ewid[0]).val then advance 26 r.ep[1] else r.ep[1]
  if ep1.toNat = (enigmaNotch par r.ewid[1]).val then #v[ep0, advance 26 ep1, advance 26 r.ep[2]]
  else #v[ep0, ep1, r.ep[2]]

/-- `PlugPass(l) = PLUG[l]` (R147). -/
def plugPass (r : EnigmaRegs) (l : Letter) : Letter := letterOf r.plug[l]

/-- `ReflectPass(l) = idx_AL(E_REFL[ERID][l])`: no position enters the lookup (R147). -/
def reflectPass (par : Parameters) (r : EnigmaRegs) (l : Letter) : Letter := (enigmaReflector par r.erid)[l]

/-- `StepM209(ACT)` (R148): every wheel advances, modulo its own length. -/
def stepM209 (act : Vector (BitVec 5) 6) : Vector (BitVec 5) 6 :=
  Vector.ofFn fun w => advance (wheelLength w) act[w]

/-- `StepSigabaControl(KP, CAD)` (R149). -/
def stepSigabaControl (kp : Vector (BitVec 5) 5) (cad : BitVec 10) : Vector (BitVec 5) 5 × BitVec 10 :=
  let cad := advance 676 cad
  let kp2 := advance 26 kp[2]
  let kp3 := if cad.toNat % 26 = 0 then advance 26 kp[3] else kp[3]
  let kp1 := if cad = 0#10 then advance 26 kp[1] else kp[1]
  (#v[kp[0], kp1, kp2, kp3, kp[4]], cad)

/-- Whether register j is in the advance set `{ XO[m] div 2 }` (R150). -/
def inAdvanceSet (xo : Vector Digit 4) (j : Nat) : Bool := xo.toList.any fun d => d.val / 2 == j

/-- `StepSigabaCipher(CP, XO)` (R150): each member of the set advances by exactly 1, and `ADV` is the sum of 2^j over
the set. -/
def stepSigabaCipher (cp : Vector (BitVec 5) 5) (xo : Vector Digit 4) : Vector (BitVec 5) 5 × BitVec 5 :=
  (Vector.ofFn fun j => if inAdvanceSet xo j then advance 26 cp[j] else cp[j],
   BitVec.ofNat 5 (((List.range 5).filter (inAdvanceSet xo)).map (2 ^ ·)).sum)

/-- `DigitClass(l) = S_CLASS[l]` (R151). -/
def digitClass (par : Parameters) (l : Letter) : Digit := par.sClass[l]

end Sys2Proof.Machine
end

