-- ==== Sys2Proof/Machine/Enigma.lean ====
section
/-! DEFINITION. The Enigma machine: its key writes, its part of `START` and of `SYMBOL` (spec/41_enigma.md). -/

namespace Sys2Proof.Machine

/-- `ENG.ROTOR slot, rotor`: `EROT[slot] <- rotor` (R180). -/
def execEngRotor (slot rotor : Byte) (s : State) : Outcome :=
  writeKey s (slot.toNat ≤ 2) { s.keys with erot := s.keys.erot.setIfInBounds slot.toNat rotor }

/-- `ENG.REFL reflector`: `EREF <- reflector` (R181). -/
def execEngRefl (reflector : Byte) (s : State) : Outcome :=
  writeKey s true { s.keys with eref := reflector }

/-- `ENG.POS slot, letter`: `EPOS[slot] <- letter` (R182). -/
def execEngPos (slot letter : Byte) (s : State) : Outcome :=
  writeKey s (slot.toNat ≤ 2) { s.keys with epos := s.keys.epos.setIfInBounds slot.toNat letter }

/-- `ENG.RING slot, letter`: `ERING[slot] <- letter` (R183). -/
def execEngRing (slot letter : Byte) (s : State) : Outcome :=
  writeKey s (slot.toNat ≤ 2) { s.keys with ering := s.keys.ering.setIfInBounds slot.toNat letter }

/-- `EPLUG[k][i] <- letter` (R184). -/
def setPlugKey (eplug : Vector (Vector Byte 10) 2) (k i : Nat) (letter : Byte) : Vector (Vector Byte 10) 2 :=
  eplug.setIfInBounds k ((eplug.getD k eplug[0]).setIfInBounds i letter)

/-- `ENG.PLUG string, index, letter`: `EPLUG[string][index] <- letter` (R184). -/
def execEngPlug (string index letter : Byte) (s : State) : Outcome :=
  writeKey s (string.toNat ≤ 1 && index.toNat ≤ 9)
    { s.keys with eplug := setPlugKey s.keys.eplug string.toNat index.toNat letter }

/-- The 20 plug letters, string 0 first (R190). -/
def plugLetters (keys : KeyRegs) : List Byte := keys.eplug[0].toList ++ keys.eplug[1].toList

/-- The checks of `START ENIGMA`, in the order of R190 and R344. -/
def enigmaChecks (par : Parameters) (keys : KeyRegs) : List (Bool × Status) :=
  [ (anyKey keys.erot isUnset, .missingKey),
    (isUnset keys.eref, .missingKey),
    (anyKey keys.epos isUnset, .missingKey),
    (anyKey keys.ering isUnset, .missingKey),
    ((plugLetters keys).any isUnset, .missingKey),
    (anyKey keys.erot (outOfRange 5), .unknownRotor),
    (outOfRange par.eRefl.length keys.eref, .unknownReflector),
    (anyKey keys.epos (outOfRange 26), .badLetter),
    (anyKey keys.ering (outOfRange 26), .badLetter),
    ((plugLetters keys).any (outOfRange 26), .badLetter),
    (!decide (plugLetters keys).Nodup, .plugConflict) ]

/-- `PLUG[a] <- b; PLUG[b] <- a` (R191). -/
def swapPlug (plug : Vector (BitVec 5) 26) (pair : Byte × Byte) : Vector (BitVec 5) 26 :=
  (plug.setIfInBounds pair.1.toNat (pair.2.setWidth 5)).setIfInBounds pair.2.toNat (pair.1.setWidth 5)

/-- The plugboard of ten pairs: letter i of string 0 with letter i of string 1, over the identity (R191). -/
def plugBoard (keys : KeyRegs) : Vector (BitVec 5) 26 :=
  (keys.eplug[0].toList.zip keys.eplug[1].toList).foldl swapPlug (Vector.ofFn fun l => letterBits l)

/-- The working state `START ENIGMA` builds (R191): the bank is the key order reversed, the position is reduced by the
ring. -/
def enigmaSetup (keys : KeyRegs) : EnigmaRegs where
  ewid := Vector.ofFn fun k : Fin 3 => (keys.erot[2 - k.val]).setWidth 3
  ep := Vector.ofFn fun k : Fin 3 =>
    letterBits (floorMod 26 ((keys.epos[2 - k.val]).toNat - (keys.ering[2 - k.val]).toNat))
  erid := keys.eref
  plug := plugBoard keys

/-- The pass of bank slot k at its position (R193). -/
def enigmaRotor (par : Parameters) (r : EnigmaRegs) (k : Fin 3) (invert : Bool) (x : Letter) : Letter :=
  rotorPass x (enigmaWiring par r.ewid[k]) r.ep[k].toNat invert

/-- Forward through the bank, reflector, backward, at the positions of `r` (R193). -/
def enigmaStack (par : Parameters) (r : EnigmaRegs) (x : Letter) : Letter :=
  let x := enigmaRotor par r 0 false x
  let x := enigmaRotor par r 1 false x
  let x := enigmaRotor par r 2 false x
  let x := reflectPass par r x
  let x := enigmaRotor par r 2 true x
  let x := enigmaRotor par r 1 true x
  enigmaRotor par r 0 true x

/-- One symbol of an Enigma run: plugboard, step, stack, plugboard (R193). -/
def enigmaSymbol (par : Parameters) (r : EnigmaRegs) (input : Letter) : EnigmaRegs × Letter :=
  let x := plugPass r input
  let r := { r with ep := stepEnigma par r }
  (r, plugPass r (enigmaStack par r x))

end Sys2Proof.Machine
end

