-- ==== Sys2Proof/Machine/M209.lean ====
section
/-! DEFINITION. The M-209 machine: its key writes, its part of `START` and of `SYMBOL` (spec/42_m209.md). -/

namespace Sys2Proof.Machine

/-- `M209.KEY wheel, letter`: `MKEY[wheel] <- letter` (R220). -/
def execM209Key (wheel letter : Byte) (s : State) : Outcome :=
  writeKey s (wheel.toNat ≤ 5) { s.keys with mkey := s.keys.mkey.setIfInBounds wheel.toNat letter }

/-- `M209.PIN wheel, pin, bit`: `MPIN[wheel][pin] <- bit`, the bit checked at once, after the mode (R221, R343). -/
def execM209Pin (wheel pin bit : Byte) (s : State) : Outcome :=
  if 5 < wheel.toNat ∨ wheelLength wheel.toNat ≤ pin.toNat then raise s .badSlot
  else if s.mode ≠ .idle then raise s .busy
  else if 1 < bit.toNat then raise s .badPin
  else
    respond (s.withKeys { s.keys with mpin := setPin s.keys.mpin wheel.toNat pin.toNat (bit == 1#8) }) 0#16

/-- `M209.LUG`: `MLUGA[bar] <- regA; MLUGB[bar] <- regB` (R222). -/
def execM209Lug (regA bar regB : Byte) (s : State) : Outcome :=
  writeKey s (bar.toNat ≤ 26)
    { s.keys with
      mluga := s.keys.mluga.setIfInBounds bar.toNat regA
      mlugb := s.keys.mlugb.setIfInBounds bar.toNat regB }

/-- The key letter of wheel w is none of the wheel's own letters (R230). -/
def notOnWheel (par : Parameters) (keys : KeyRegs) (w : Fin 6) : Bool :=
  !(par.mAlpha[w]).contains (letterOf keys.mkey[w])

/-- The checks of `START M209`, in the order of R230 and R344. -/
def m209Checks (par : Parameters) (keys : KeyRegs) : List (Bool × Status) :=
  [ (anyKey keys.mkey isUnset, .missingKey),
    (anyKey keys.mkey (outOfRange 26), .badLetter),
    ((List.finRange 6).any (notOnWheel par keys), .wheelKey),
    (anyKey keys.mluga (outOfRange 7), .badLug),
    (anyKey keys.mlugb (outOfRange 7), .badLug) ]

/-- The working state `START M209` builds (R231). -/
def m209Setup (par : Parameters) (keys : KeyRegs) : M209Regs where
  act := Vector.ofFn fun w =>
    BitVec.ofNat 5 ((wheelOffset w + wheelIndex par w (letterOf keys.mkey[w])) % wheelLength w)
  ps := keys.mpin
  la := Vector.ofFn fun b => (keys.mluga[b]).setWidth 3
  lb := Vector.ofFn fun b => (keys.mlugb[b]).setWidth 3
  mkReg := 0#6

/-- Register `reg` of a lug bar is connected and its wheel's active pin is 1 (R233). -/
def registerActive (r : M209Regs) (reg : BitVec 3) : Bool :=
  reg != 0#3 && pinAt r.ps (reg.toNat - 1) (r.act.getD (reg.toNat - 1) 0#5).toNat

/-- Bar b contributes 1: any register it names is active (R233, R234). -/
def barActive (r : M209Regs) (b : Fin 27) : Bool := registerActive r r.la[b] || registerActive r r.lb[b]

/-- The keystream value K: how many of the 27 bars contribute (R233). -/
def keystream (r : M209Regs) : Nat := (List.finRange 27).countP (barActive r)

/-- `(25 + K - p) mod 26` (R233). -/
def m209Output (k : Nat) (p : Letter) : Letter := floorMod 26 (25 + k - p.val)

/-- One symbol of an M-209 run: K from the pins before the wheels advance (R233, R234 h). -/
def m209Symbol (r : M209Regs) (p : Letter) : M209Regs × Letter :=
  let k := keystream r
  ({ r with mkReg := BitVec.ofNat 6 k, act := stepM209 r.act }, m209Output k p)

end Sys2Proof.Machine
end

