-- ==== Sys2Proof/Machine/Sigaba.lean ====
section
/-! DEFINITION. The SIGABA machine: its key writes, its part of `START` and of `SYMBOL` (spec/43_sigaba.md). -/

namespace Sys2Proof.Machine

/-- `SIG.CROT slot, rotor`: `SCROT[slot] <- rotor` (R260). -/
def execSigCrot (slot rotor : Byte) (s : State) : Outcome :=
  writeKey s (slot.toNat ≤ 4) { s.keys with scrot := s.keys.scrot.setIfInBounds slot.toNat rotor }

/-- `SIG.KROT slot, rotor`: `SKROT[slot] <- rotor` (R261). -/
def execSigKrot (slot rotor : Byte) (s : State) : Outcome :=
  writeKey s (slot.toNat ≤ 4) { s.keys with skrot := s.keys.skrot.setIfInBounds slot.toNat rotor }

/-- `SIG.IROT slot, rotor`: `SIROT[slot] <- rotor` (R262). -/
def execSigIrot (slot rotor : Byte) (s : State) : Outcome :=
  writeKey s (slot.toNat ≤ 4) { s.keys with sirot := s.keys.sirot.setIfInBounds slot.toNat rotor }

/-- `SIG.IND slot, letter`: `SIND[slot] <- letter` (R263). -/
def execSigInd (slot letter : Byte) (s : State) : Outcome :=
  writeKey s (slot.toNat ≤ 4) { s.keys with sind := s.keys.sind.setIfInBounds slot.toNat letter }

/-- `SIG.KPOS slot, letter`: `SKPOS[slot] <- letter` (R264). -/
def execSigKpos (slot letter : Byte) (s : State) : Outcome :=
  writeKey s (slot.toNat ≤ 4) { s.keys with skpos := s.keys.skpos.setIfInBounds slot.toNat letter }

/-- `SIG.IPOS slot, digit`: `SIPOS[slot] <- digit` (R265). -/
def execSigIpos (slot digit : Byte) (s : State) : Outcome :=
  writeKey s (slot.toNat ≤ 4) { s.keys with sipos := s.keys.sipos.setIfInBounds slot.toNat digit }

/-- The checks of `START SIGABA`, in the order of R270 and R344. -/
def sigabaChecks (keys : KeyRegs) : List (Bool × Status) :=
  [ (anyKey keys.scrot isUnset, .missingKey),
    (anyKey keys.skrot isUnset, .missingKey),
    (anyKey keys.sirot isUnset, .missingKey),
    (anyKey keys.sind isUnset, .missingKey),
    (anyKey keys.skpos isUnset, .missingKey),
    (anyKey keys.sipos isUnset, .missingKey),
    (anyKey keys.scrot (outOfRange 10), .unknownRotor),
    (anyKey keys.skrot (outOfRange 10), .unknownRotor),
    (anyKey keys.sirot (outOfRange 5), .unknownRotor),
    (anyKey keys.sind (outOfRange 26), .badLetter),
    (anyKey keys.skpos (outOfRange 26), .badLetter),
    (anyKey keys.sipos (outOfRange 10), .badDigit) ]

/-- The working state `START SIGABA` builds, the same in both directions (R271). -/
def sigabaSetup (keys : KeyRegs) : SigabaRegs where
  cid := Vector.ofFn fun j => (keys.scrot[j]).setWidth 4
  kid := Vector.ofFn fun j => (keys.skrot[j]).setWidth 4
  xid := Vector.ofFn fun j => (keys.sirot[j]).setWidth 3
  cp := Vector.ofFn fun j => (keys.sind[j]).setWidth 5
  kp := Vector.ofFn fun j => (keys.skpos[j]).setWidth 5
  ip := Vector.ofFn fun j => (keys.sipos[j]).setWidth 4
  cad := 0#10
  adv := 0#5

/-- The pass of cipher rotor j at its own position (R281). -/
def cipherRotor (par : Parameters) (r : SigabaRegs) (invert : Bool) (x : Letter) (j : Fin 5) : Letter :=
  rotorPass x (largeWiring par r.cid[j]) r.cp[j].toNat invert

/-- Step 1: the cipher bank, forward 0 to 4 for encode, inverted 4 to 0 for decode (R281). -/
def cipherBank (par : Parameters) (r : SigabaRegs) (decoding : Bool) (x : Letter) : Letter :=
  if decoding then [4, 3, 2, 1, 0].foldl (cipherRotor par r true) x
  else [0, 1, 2, 3, 4].foldl (cipherRotor par r false) x

/-- The pass of control rotor j at its own position (R283). -/
def controlRotor (par : Parameters) (r : SigabaRegs) (x : Letter) (j : Fin 5) : Letter :=
  rotorPass x (largeWiring par r.kid[j]) r.kp[j].toNat false

/-- Step 2: the step maze, the four markers forward through control rotors 0 to 4 (R283). -/
def mazeOutputs (par : Parameters) (r : SigabaRegs) : Vector Letter 4 :=
  Vector.ofFn fun m => [0, 1, 2, 3, 4].foldl (controlRotor par r) mazeMarkers[m]

/-- The pass of index rotor j at its own position (R285). -/
def indexRotor (par : Parameters) (r : SigabaRegs) (x : Digit) (j : Fin 5) : Digit :=
  rotorPass x (indexWiring par r.xid[j]) r.ip[j].toNat false

/-- Step 5: the index bank, each class digit forward through index rotors 0 to 4 (R285). -/
def indexOutputs (par : Parameters) (r : SigabaRegs) (d : Vector Digit 4) : Vector Digit 4 :=
  Vector.ofFn fun m => [0, 1, 2, 3, 4].foldl (indexRotor par r) d[m]

/-- Steps 2 to 6: the maze, the control advance, the digit classes, the index bank, the cipher advance (R280). The
input symbol plays no part (R287). -/
def sigabaAdvance (par : Parameters) (r : SigabaRegs) : SigabaRegs :=
  let mo := mazeOutputs par r
  let control := stepSigabaControl r.kp r.cad
  let r := { r with kp := control.1, cad := control.2 }
  let d : Vector Digit 4 := Vector.ofFn fun m => digitClass par mo[m]
  let xo := indexOutputs par r d
  let cipher := stepSigabaCipher r.cp xo
  { r with cp := cipher.1, adv := cipher.2 }

/-- One symbol of a SIGABA run: the output from the positions before the advance (R280, R282). -/
def sigabaSymbol (par : Parameters) (r : SigabaRegs) (decoding : Bool) (input : Letter) : SigabaRegs × Letter :=
  (sigabaAdvance par r, cipherBank par r decoding input)

end Sys2Proof.Machine
end

