-- ==== Sys2Proof/Machine/Orchestrator.lean ====
section
/-! DEFINITION. The six commands all machines share: `NOP`, `SRESET`, `START`, `END`, `SYMBOL`, `READ` (spec/44_orchestrator.md R300–R305). Their must-be-zero checks stand in the decoder, which is where every command meets them first (R108, R343). -/

namespace Sys2Proof.Machine

/-- `NOP`: nothing, in every mode (R300). -/
def execNop (s : State) : Outcome := respond s 0#16

/-- `SRESET`: the whole block takes its reset state, in every mode (R301). -/
def execSreset (s : State) : Outcome := respond s.resetBlock 0#16

/-- The end of `START`: the first failing check raises its code and changes nothing; otherwise the run begins (R302,
R374). -/
def startRun (s : State) (checks : List (Bool × Status)) (started : State) : Outcome :=
  match firstFailure checks with
  | some code => raise s code
  | none => respond started 0#16

/-- `START machine, dir` (R302): Enigma and M-209 ignore the direction (D29). The other machines' working registers stay
as they were, unreadable (R38, log 14). -/
def execStart (machine dir : Byte) (s : State) : Outcome :=
  if 2 < machine.toNat ∨ 1 < dir.toNat then raise s .badSlot
  else if s.mode ≠ .idle then raise s .busy
  else
    match machine.toNat with
    | 0 => startRun s (enigmaChecks s.par s.keys) { s with mode := .enigma, eng := enigmaSetup s.keys }
    | 1 => startRun s (m209Checks s.par s.keys) { s with mode := .m209, m209 := m209Setup s.par s.keys }
    | _ =>
      startRun s (sigabaChecks s.keys)
        { s with mode := if dir = 0#8 then .sigabaEnc else .sigabaDec, sig := sigabaSetup s.keys }

/-- `END`: the run ends and its working registers are discarded; with no run, nothing (R303). -/
def execEndRun (s : State) : Outcome :=
  if s.mode = .idle then respond s 0#16 else respond s.discardRun 0#16

/-- The data of a `SYMBOL` response: the letter's code in `data[7:0]` (R112). -/
def letterData (l : Letter) : Data16 := BitVec.ofNat 16 l.val

/-- `SYMBOL symbol`: one symbol of the running machine (R304). -/
def execSymbol (symbol : Byte) (s : State) : Outcome :=
  if s.mode = .idle then raise s .notRunning
  else if 25 < symbol.toNat then raise s .badSymbol
  else
    match s.mode with
    | .idle => raise s .notRunning
    | .enigma =>
      let result := enigmaSymbol s.par s.eng (letterOf symbol)
      respond { s with eng := result.1 } (letterData result.2)
    | .m209 =>
      let result := m209Symbol s.m209 (letterOf symbol)
      respond { s with m209 := result.1 } (letterData result.2)
    | .sigabaEnc =>
      let result := sigabaSymbol s.par s.sig false (letterOf symbol)
      respond { s with sig := result.1 } (letterData result.2)
    | .sigabaDec =>
      let result := sigabaSymbol s.par s.sig true (letterOf symbol)
      respond { s with sig := result.1 } (letterData result.2)

/-- The slots of a `READ` group (R106); 0 for the reserved groups. -/
def readSlots : Nat → Nat
  | 0 => 1
  | 1 => 3
  | 2 => 6
  | 3 => 1
  | 4 => 5
  | 5 => 5
  | 6 => 5
  | 7 => 1
  | 8 => 1
  | _ => 0

/-- When a `READ` group is readable (R106). -/
def groupReadable (group : Nat) (mode : Mode) : Bool :=
  match group with
  | 0 => true
  | 1 => mode == .enigma
  | 2 => mode == .m209
  | 3 => mode == .m209
  | _ => mode.isSigaba

/-- The register a group and slot name, zero-extended to 16 bits (R106, R112, R305). -/
def readValue (s : State) (group slot : Nat) : Data16 :=
  match group with
  | 0 => s.mode.code.setWidth 16
  | 1 => (s.eng.ep.getD slot 0#5).setWidth 16
  | 2 => (s.m209.act.getD slot 0#5).setWidth 16
  | 3 => s.m209.mkReg.setWidth 16
  | 4 => (s.sig.cp.getD slot 0#5).setWidth 16
  | 5 => (s.sig.kp.getD slot 0#5).setWidth 16
  | 6 => (s.sig.ip.getD slot 0#4).setWidth 16
  | 7 => s.sig.cad.setWidth 16
  | _ => s.sig.adv.setWidth 16

/-- `READ group, slot`: one observable register, nothing changed (R305). -/
def execRead (group slot : Byte) (s : State) : Outcome :=
  if readSlots group.toNat ≤ slot.toNat then raise s .badSlot
  else if groupReadable group.toNat s.mode then respond s (readValue s group.toNat slot.toNat)
  else raise s .notRunning

end Sys2Proof.Machine
end

