-- ==== Sys2Proof/Machine/Dispatch.lean ====
section
/-! DEFINITION. One arm per command, each one call of its meaning (spec/30_encoding.md R105). -/

namespace Sys2Proof.Machine

/-- The meaning of a decoded command. -/
def exec (i : Instr) (s : State) : Host.Outcome State Fault Refusal :=
  match i with
  | .nop => Sys2Proof.Machine.execNop s
  | .sreset => Sys2Proof.Machine.execSreset s
  | .start machine dir => Sys2Proof.Machine.execStart machine dir s
  | .endRun => Sys2Proof.Machine.execEndRun s
  | .symbol symbol => Sys2Proof.Machine.execSymbol symbol s
  | .read group slot => Sys2Proof.Machine.execRead group slot s
  | .engRotor slot rotor => Sys2Proof.Machine.execEngRotor slot rotor s
  | .engRefl reflector => Sys2Proof.Machine.execEngRefl reflector s
  | .engPos slot letter => Sys2Proof.Machine.execEngPos slot letter s
  | .engRing slot letter => Sys2Proof.Machine.execEngRing slot letter s
  | .engPlug string index letter => Sys2Proof.Machine.execEngPlug string index letter s
  | .m209Key wheel letter => Sys2Proof.Machine.execM209Key wheel letter s
  | .m209Pin wheel pin bit => Sys2Proof.Machine.execM209Pin wheel pin bit s
  | .m209Lug regA bar regB => Sys2Proof.Machine.execM209Lug regA bar regB s
  | .sigCrot slot rotor => Sys2Proof.Machine.execSigCrot slot rotor s
  | .sigKrot slot rotor => Sys2Proof.Machine.execSigKrot slot rotor s
  | .sigIrot slot rotor => Sys2Proof.Machine.execSigIrot slot rotor s
  | .sigInd slot letter => Sys2Proof.Machine.execSigInd slot letter s
  | .sigKpos slot letter => Sys2Proof.Machine.execSigKpos slot letter s
  | .sigIpos slot digit => Sys2Proof.Machine.execSigIpos slot digit s

end Sys2Proof.Machine
end

