-- ==== Sys2Proof/Machine/Port.lean ====
section
/-! DEFINITION. The command port (spec/20_memory.md R82) and its bus binding (R83–R86): what one access of the host does. -/

namespace Sys2Proof.Machine

/-- One command on the port: the decoded command's meaning, or `E_ILLEGAL`, which changes no register (R82, R108). -/
def commandStep (w : Word32) (s : State) : Outcome :=
  match decode w with
  | .ok i => exec i s
  | .error _ => raise s .illegal

/-- The abstract step of R82: a state and a command word give a state and a response word. -/
def portStep (s : State) (w : Word32) : State × Word32 :=
  match commandStep w s with
  | .next t => (t, t.rsp)
  | .fault _ => (s, s.rsp)
  | .refused _ => (s, s.rsp)

/-- The binding admits only naturally aligned 32-bit accesses of this one word (R85). -/
def accessAdmitted (word addr size : Nat) : Bool := size == 4 && addr % 4 == 0 && addr == word

/-- What one access of the host does: a command, a write of `CMD` at `CORE_BASE + 0`, a read of `RSP` at
`CORE_BASE + 4`, a hardware reset (R82, R83, R370). Every other access has no step (R85). -/
def serve (event : PortEvent) (s : State) : Outcome :=
  match event with
  | .command w => commandStep w s
  | .write addr size data =>
    if accessAdmitted s.par.coreBase addr size then commandStep data s else .fault .busAccessNotAdmitted
  | .read addr size =>
    if accessAdmitted (s.par.coreBase + 4) addr size then .next { s with rdata := s.rsp }
    else .fault .busAccessNotAdmitted
  | .hardReset => .next s.resetBlock

/-- The host's next access and those that wait behind it, or none: the block then waits (R371). -/
def nextEvent (s : State) : Option (PortEvent × State) :=
  match s.inbox with
  | [] => none
  | event :: rest => some (event, { s with inbox := rest })

/-- One step: take the next access and serve it; with none waiting the state holds unchanged (R354, R371, R380). -/
def takeStep (s : State) : Outcome :=
  match nextEvent s with
  | none => .next s
  | some (event, t) => serve event t

/-- The state with this command next on the abstract port (log 1). -/
def placeCommand (s : State) (w : Word32) : State := { s with inbox := .command w :: s.inbox }

end Sys2Proof.Machine
end

