-- ==== Sys2Proof/Machine/Step.lean ====
section
/-! DEFINITION. One step of the block (spec/70_reset_and_hazards.md R380, R371), and the state with a given command next. -/

namespace Sys2Proof.Machine

/-- One step: the host's next access is taken and served; with none waiting, the block waits. -/
def step (s : State) : Host.Outcome State Fault Refusal := takeStep s

/-- `s` with the instruction whose bits are `w` as the next command of the host, so that the next step runs it
(log 1). -/
def State.withFetchWord (s : State) (nbits w : Nat) : State := placeCommand s (tableWord nbits w)

end Sys2Proof.Machine
end

