-- ==== Sys2Proof/Machine/Assembler.lean ====
section
/-! DEFINITION. The assembler: names and codes (spec/30_encoding.md R101–R104), one line per command (R113), and the pseudo-instructions with their expansions (R114). -/

namespace Sys2Proof.Machine

/-- The code of a letter: A = 0 ... Z = 25 (R101). -/
def letterCode (c : Char) : Option Byte :=
  if 65 ≤ c.toNat ∧ c.toNat ≤ 90 then some (BitVec.ofNat 8 (c.toNat - 65)) else none

/-- The letter of a code (R101). -/
def letterChar (b : Byte) : Char := Char.ofNat (b.toNat + 65)

/-- The code of a digit: its value (R101). -/
def digitCode (c : Char) : Option Byte :=
  if 48 ≤ c.toNat ∧ c.toNat ≤ 57 then some (BitVec.ofNat 8 (c.toNat - 48)) else none

/-- The code of a rotor name: I = 0 ... X = 9 (R102). -/
def romanCode (name : List Char) : Option Byte :=
  [(['I'], 0#8), (['I', 'I'], 1#8), (['I', 'I', 'I'], 2#8), (['I', 'V'], 3#8), (['V'], 4#8), (['V', 'I'], 5#8),
   (['V', 'I', 'I'], 6#8), (['V', 'I', 'I', 'I'], 7#8), (['I', 'X'], 8#8), (['X'], 9#8)].lookup name

/-- The codes of a list of names, where every one has a code. -/
def codesOf {α : Type} (code : α → Option Byte) : List α → Option (List Byte)
  | [] => some []
  | x :: xs =>
    match code x, codesOf code xs with
    | some b, some bs => some (b :: bs)
    | _, _ => none

/-- The value of one digit of a number in base 10 or 16. -/
def digitValue (base : Nat) (c : Char) : Option Nat :=
  let n := c.toNat
  let v := if 48 ≤ n ∧ n ≤ 57 then n - 48 else if 65 ≤ n ∧ n ≤ 70 then n - 55 else if 97 ≤ n ∧ n ≤ 102 then n - 87 else 16
  if v < base then some v else none

/-- The value of a nonempty string of digits. -/
def numberValue (base : Nat) (digits : List Char) : Option Nat :=
  if digits = [] then none
  else digits.foldl (fun acc c => match acc, digitValue base c with
    | some a, some v => some (a * base + v)
    | _, _ => none) (some 0)

/-- A number of one field, decimal or `0x` hexadecimal (R113). -/
def numberCode (token : List Char) : Option Byte :=
  let value := match token with
    | '0' :: 'x' :: digits => numberValue 16 digits
    | digits => numberValue 10 digits
  value.bind fun v => if v < 256 then some (BitVec.ofNat 8 v) else none

/-- A one-character operand. -/
def oneChar (code : Char → Option Byte) : List Char → Option Byte
  | [c] => code c
  | _ => none

/-- The value operand of a key write: `UNSET` encodes as 0xFF (R104, R113). -/
def keyValue (code : List Char → Option Byte) (token : List Char) : Option Byte :=
  if token = ['U', 'N', 'S', 'E', 'T'] then some unsetKey else code token

/-- A pin bit: `+` = 1, `-` = 0 (R113). -/
def pinBit (c : Char) : Option Byte := if c = '+' then some 1#8 else if c = '-' then some 0#8 else none

/-- The machine operand of `START` (R113). -/
def machineCode (token : List Char) : Option Byte :=
  [("ENIGMA".toList, 0#8), ("M209".toList, 1#8), ("SIGABA".toList, 2#8)].lookup token

/-- The direction operand of `START` (R113). -/
def directionCode (token : List Char) : Option Byte :=
  [("ENC".toList, 0#8), ("DEC".toList, 1#8)].lookup token

/-- An operand R113 gives only names or signs for: one of them, or a number. R113's table has no number here, but lines of
other rules do (`M209.PIN 5, 17, 1` in R221, `M209.PIN 7, 0, 5` in R343, `START 3, 0` in spec/95_test_vectors.md): taking
both is the model's (DESIGN CHOICE, unsafe for claims about program text only, log 17). -/
def namedOrNumber (code : List Char → Option Byte) (token : List Char) : Option Byte :=
  match code token with
  | some b => some b
  | none => numberCode token

/-- The group operand of `READ`: one of its names, or a number 0..8 (R113). -/
def groupCode (token : List Char) : Option Byte :=
  match [("MODE".toList, 0#8), ("EPOS".toList, 1#8), ("ACT".toList, 2#8), ("MK".toList, 3#8), ("CPOS".toList, 4#8),
    ("KPOS".toList, 5#8), ("IPOS".toList, 6#8), ("CAD".toList, 7#8), ("ADV".toList, 8#8)].lookup token with
  | some code => some code
  | none => (numberCode token).bind fun v => if v.toNat ≤ 8 then some v else none

/-- A command with a slot number and a key value. -/
def slotAndKey (build : Byte → Byte → Instr) (code : List Char → Option Byte) (slot value : List Char) : Option Instr :=
  match numberCode slot, keyValue code value with
  | some b, some c => some (build b c)
  | _, _ => none

/-- A command with two operands. -/
def twoOperands (build : Byte → Byte → Instr) (x y : Option Byte) : Option Instr :=
  match x, y with
  | some a, some b => some (build a b)
  | _, _ => none

/-- A command with three operands. -/
def threeOperands (build : Byte → Byte → Byte → Instr) (x y z : Option Byte) : Option Instr :=
  match x, y, z with
  | some a, some b, some c => some (build a b c)
  | _, _, _ => none

/-- The command a mnemonic and its operands are written for: the table of R113, line for line. The operands of `START` and
the bit of `M209.PIN` may also be numbers (DESIGN CHOICE, log 17). -/
def assembleTokens (mnemonic : List Char) (operands : List (List Char)) : Option Instr :=
  if mnemonic = "NOP".toList then match operands with
    | [] => some .nop
    | _ => none
  else if mnemonic = "SRESET".toList then match operands with
    | [] => some .sreset
    | _ => none
  else if mnemonic = "START".toList then match operands with
    | [machine, dir] => twoOperands .start (namedOrNumber machineCode machine) (namedOrNumber directionCode dir)
    | _ => none
  else if mnemonic = "END".toList then match operands with
    | [] => some .endRun
    | _ => none
  else if mnemonic = "SYM".toList then match operands with
    | [letter] => (oneChar letterCode letter).map .symbol
    | _ => none
  else if mnemonic = "READ".toList then match operands with
    | [group, slot] => twoOperands .read (groupCode group) (numberCode slot)
    | _ => none
  else if mnemonic = "ENG.ROTOR".toList then match operands with
    | [slot, roman] => slotAndKey .engRotor romanCode slot roman
    | _ => none
  else if mnemonic = "ENG.REFL".toList then match operands with
    | [letter] => (keyValue (oneChar letterCode) letter).map .engRefl
    | _ => none
  else if mnemonic = "ENG.POS".toList then match operands with
    | [slot, letter] => slotAndKey .engPos (oneChar letterCode) slot letter
    | _ => none
  else if mnemonic = "ENG.RING".toList then match operands with
    | [slot, letter] => slotAndKey .engRing (oneChar letterCode) slot letter
    | _ => none
  else if mnemonic = "ENG.PLUG".toList then match operands with
    | [string, index, letter] =>
      threeOperands .engPlug (numberCode string) (numberCode index) (keyValue (oneChar letterCode) letter)
    | _ => none
  else if mnemonic = "M209.KEY".toList then match operands with
    | [wheel, letter] => slotAndKey .m209Key (oneChar letterCode) wheel letter
    | _ => none
  else if mnemonic = "M209.PIN".toList then match operands with
    | [wheel, pin, bit] => threeOperands .m209Pin (numberCode wheel) (numberCode pin) (namedOrNumber (oneChar pinBit) bit)
    | _ => none
  else if mnemonic = "M209.LUG".toList then match operands with
    | [bar, regA, regB] => threeOperands .m209Lug (numberCode regA) (numberCode bar) (numberCode regB)
    | _ => none
  else if mnemonic = "SIG.CROT".toList then match operands with
    | [slot, roman] => slotAndKey .sigCrot romanCode slot roman
    | _ => none
  else if mnemonic = "SIG.KROT".toList then match operands with
    | [slot, roman] => slotAndKey .sigKrot romanCode slot roman
    | _ => none
  else if mnemonic = "SIG.IROT".toList then match operands with
    | [slot, roman] => slotAndKey .sigIrot romanCode slot roman
    | _ => none
  else if mnemonic = "SIG.IND".toList then match operands with
    | [slot, letter] => slotAndKey .sigInd (oneChar letterCode) slot letter
    | _ => none
  else if mnemonic = "SIG.KPOS".toList then match operands with
    | [slot, letter] => slotAndKey .sigKpos (oneChar letterCode) slot letter
    | _ => none
  else if mnemonic = "SIG.IPOS".toList then match operands with
    | [slot, digit] => slotAndKey .sigIpos (oneChar digitCode) slot digit
    | _ => none
  else none

/-- A text cut at every comma, with its blanks dropped; a blank text has no part. -/
def commaParts (text : List Char) : List (List Char) :=
  let solid := text.filter (· ≠ ' ')
  if solid = [] then []
  else solid.foldr (fun c parts => match c, parts with
    | ',', parts => [] :: parts
    | c, part :: rest => (c :: part) :: rest
    | c, [] => [[c]]) [[]]

/-- One line: a mnemonic, a blank, and comma-separated operands (R113, log 17). The word is `encode` of the command. -/
def assembleLine (line : List Char) : Option Instr :=
  assembleTokens (line.takeWhile (· ≠ ' ')) (commaParts (line.dropWhile (· ≠ ' ')))

/-- One command per element, numbered from 0. -/
def numbered {α : Type} (build : Nat → α → Instr) (xs : List α) : List Instr :=
  xs.zipIdx.map fun x => build x.2 x.1

/-- The pseudo-instructions of R114, their operands as written. -/
inductive Pseudo where
  | engRotors (names : List (List Char))
  | engPoss (letters : List Char)
  | engRings (letters : List Char)
  | engPlugs (string0 string1 : List Char)
  | m209Keys (letters : List Char)
  | m209Pins (wheel : Nat) (pins : List Char)
  | m209Lugs (bars : List (Byte × Byte))
  | sigCrots (names : List (List Char))
  | sigKrots (names : List (List Char))
  | sigIrots (names : List (List Char))
  | sigInds (letters : List Char)
  | sigKposs (letters : List Char)
  | sigIposs (digits : List Char)
  | syms (letters : List Char)
  deriving DecidableEq, Repr

/-- `n` names with a code each, one command per name. -/
def expandNames {α : Type} (n : Nat) (code : α → Option Byte) (build : Byte → Byte → Instr) (names : List α) :
    Option (List Instr) :=
  if names.length = n then (codesOf code names).map (numbered fun i b => build (BitVec.ofNat 8 i) b) else none

/-- The expansion of a pseudo-instruction into commands, in order; none where the assembler refuses it: a string of
the wrong length, a name without a code (R114). R114 does not say whether `UNSET` may stand for a rotor operand of
`ENG.ROTORS`, `SIG.CROTS`, `SIG.KROTS` or `SIG.IROTS`, as R113 lets it stand in the single commands: here it may not, and
is refused like any other name without a code. A wheel of `M209.PINS` without a length is refused, and `M209.LUGS` without
a bar gives no command. These three are the model's (DESIGN CHOICE, unsafe for claims about program text only, log 17). -/
def expandPseudo : Pseudo → Option (List Instr)
  | .engRotors names => expandNames 3 romanCode .engRotor names
  | .engPoss letters => expandNames 3 letterCode .engPos letters
  | .engRings letters => expandNames 3 letterCode .engRing letters
  | .engPlugs string0 string1 =>
    match expandNames 10 letterCode (.engPlug 0#8) string0, expandNames 10 letterCode (.engPlug 1#8) string1 with
    | some first, some second => some (first ++ second)
    | _, _ => none
  | .m209Keys letters => expandNames 6 letterCode .m209Key letters
  | .m209Pins wheel pins =>
    if wheel < 6 then expandNames (wheelLength wheel) pinBit (.m209Pin (BitVec.ofNat 8 wheel)) pins else none
  | .m209Lugs bars =>
    if bars.length ≤ 27 then some (numbered (fun i bar => .m209Lug bar.1 (BitVec.ofNat 8 i) bar.2) bars) else none
  | .sigCrots names => expandNames 5 romanCode .sigCrot names
  | .sigKrots names => expandNames 5 romanCode .sigKrot names
  | .sigIrots names => expandNames 5 romanCode .sigIrot names
  | .sigInds letters => expandNames 5 letterCode .sigInd letters
  | .sigKposs letters => expandNames 5 letterCode .sigKpos letters
  | .sigIposs digits => expandNames 5 digitCode .sigIpos digits
  | .syms letters => (codesOf letterCode letters).map fun codes => codes.map .symbol

/-- Several groups of commands, in order, where every one was accepted. -/
def joinAll : List (Option (List Instr)) → Option (List Instr)
  | [] => some []
  | group :: groups =>
    match group, joinAll groups with
    | some is, some more => some (is ++ more)
    | _, _ => none

end Sys2Proof.Machine
end

