-- ==== Sys2Proof/Machine/HostOps.lean ====
section
/-! DEFINITION. The host-level operations: the source's functions as command sequences over the abstract port (spec/44_orchestrator.md R310–R316). -/

namespace Sys2Proof.Machine

/-- The host-level error codes: results of a host operation, not statuses of the block (R316). -/
inductive HostError where
  /-- `H_BAD_TEXT`: the text has a character outside A..Z. -/
  | badText
  /-- `H_BAD_LENGTH`: a key array or key string has the wrong length. -/
  | badLength
  /-- `H_UNKNOWN_NAME`: a name that is in no naming table, or a letter or digit key that is none. -/
  | unknownName
  /-- `H_BAD_PIN_CHAR`: a pin character is neither `+` nor `-`. -/
  | badPinChar
  deriving DecidableEq, Repr

/-- The source's configuration error: the host's own, or the status of a failing `START` (R316). -/
inductive ConfigError where
  | host (e : HostError)
  | block (status : Byte)
  deriving DecidableEq, Repr

/-- The commands of a list, one after the other (R380). -/
def issueAll (s : State) (is : List Instr) : State := is.foldl (fun t i => (portStep t (encode i)).1) s

/-- One `SYMBOL` per symbol, in order, and the letters they return (R306, R310). -/
def runSymbols (s : State) : List Byte → State × List Byte
  | [] => (s, [])
  | x :: xs =>
    let answer := portStep s (encode (.symbol x))
    let rest := runSymbols answer.1 xs
    (rest.1, cField answer.2 :: rest.2)

/-- `SRESET`, the key writes, `START`, the symbols, `END`; a `START` that fails ends it with no text (R310, R315). -/
def hostRun (s : State) (keyWrites : List Instr) (start : Instr) (text : List Byte) :
    State × Except ConfigError (List Char) :=
  let keyed := issueAll s (.sreset :: keyWrites)
  let started := portStep keyed (encode start)
  if responseStatus started.2 ≠ 0#8 then (started.1, .error (.block (responseStatus started.2)))
  else
    let result := runSymbols started.1 text
    ((portStep result.1 (encode .endRun)).1, .ok (result.2.map letterChar))

/-- The first host check that fails, in order (R310, R312, R313). -/
def firstHostError : List (Bool × HostError) → Option HostError
  | [] => none
  | (fails, e) :: rest => if fails then some e else firstHostError rest

/-- A host operation: the host checks come first, and one that fails issues no command (R310, R315). -/
def hostOperation (s : State) (checks : List (Bool × HostError)) (keyWrites : Option (List Instr)) (start : Instr)
    (text : List Char) : State × Except ConfigError (List Char) :=
  match firstHostError checks with
  | some e => (s, .error (.host e))
  | none =>
    match keyWrites, codesOf letterCode text with
    | some writes, some symbols => hostRun s writes start symbols
    | _, _ => (s, .error (.host .unknownName))

/-- Not every name has a code. -/
def anyUncoded {α : Type} (code : α → Option Byte) (names : List α) : Bool := names.any fun n => (code n).isNone

/-- The arguments of `ENIGMA.ENCODE` and `ENIGMA.DECODE`, in the order of R310. -/
structure EnigmaArgs where
  text : List Char
  rotorKeys : List (List Char)
  reflectorKey : List Char
  positionKeys : List Char
  plugPairs : List (List Char)
  ringKeys : List Char
  deriving DecidableEq, Repr

/-- The host checks of R310. -/
def enigmaHostChecks (a : EnigmaArgs) : List (Bool × HostError) :=
  [ (anyUncoded letterCode a.text, .badText),
    (a.rotorKeys.length != 3 || a.positionKeys.length != 3 || a.ringKeys.length != 3 || a.plugPairs.length != 2 ||
      a.plugPairs.any (·.length != 10) || a.reflectorKey.length != 1, .badLength),
    (anyUncoded romanCode a.rotorKeys || anyUncoded letterCode a.reflectorKey || anyUncoded letterCode a.positionKeys ||
      a.plugPairs.any (anyUncoded letterCode) || anyUncoded letterCode a.ringKeys, .unknownName) ]

/-- The sequence of R310 with the given direction. -/
def enigmaOperation (s : State) (dir : Byte) (a : EnigmaArgs) : State × Except ConfigError (List Char) :=
  hostOperation s (enigmaHostChecks a)
    (joinAll
      [expandPseudo (.engRotors a.rotorKeys), (oneChar letterCode a.reflectorKey).map fun code => [.engRefl code],
        expandPseudo (.engPoss a.positionKeys), expandPseudo (.engRings a.ringKeys),
        expandPseudo (.engPlugs (a.plugPairs.getD 0 []) (a.plugPairs.getD 1 []))])
    (.start 0#8 dir) a.text

/-- `ENIGMA.ENCODE` (R310). -/
def enigmaEncode (s : State) (a : EnigmaArgs) : State × Except ConfigError (List Char) := enigmaOperation s 0#8 a

/-- `ENIGMA.DECODE`: the same sequence with `START ENIGMA, DEC` (R311). -/
def enigmaDecode (s : State) (a : EnigmaArgs) : State × Except ConfigError (List Char) := enigmaOperation s 1#8 a

/-- The arguments of `M209.PROCESS`, in the order of R312. -/
structure M209Args where
  text : List Char
  wheelKey : List Char
  pinRows : List (List Char)
  lugBars : List (Int × Int)
  deriving DecidableEq, Repr

/-- An integer outside 0..255 (R312). -/
def notAByte (x : Int) : Bool := x < 0 || 255 < x

/-- The host checks of R312, and the letter check of R316 (log 16). -/
def m209HostChecks (a : M209Args) : List (Bool × HostError) :=
  [ (anyUncoded letterCode a.text, .badText),
    (a.wheelKey.length != 6, .badLength),
    (a.pinRows != [] && a.pinRows.map (·.length) != (List.range 6).map wheelLength, .badLength),
    (a.pinRows.any (anyUncoded pinBit), .badPinChar),
    (27 < a.lugBars.length || a.lugBars.any fun bar => notAByte bar.1 || notAByte bar.2, .badLength),
    (anyUncoded letterCode a.wheelKey, .unknownName) ]

/-- `M209.PROCESS`, for both directions (R312). -/
def m209Process (s : State) (a : M209Args) : State × Except ConfigError (List Char) :=
  hostOperation s (m209HostChecks a)
    (joinAll
      (expandPseudo (.m209Keys a.wheelKey) :: (a.pinRows.zipIdx.map fun row => expandPseudo (.m209Pins row.2 row.1)) ++
        [expandPseudo (.m209Lugs (a.lugBars.map fun bar => (BitVec.ofInt 8 bar.1, BitVec.ofInt 8 bar.2)))]))
    (.start 1#8 0#8) a.text

/-- The arguments of `SIGABA.ENCODE` and `SIGABA.DECODE`, in the order of R313. -/
structure SigabaArgs where
  text : List Char
  cipherRotorKeys : List (List Char)
  controlRotorKeys : List (List Char)
  indexRotorKeys : List (List Char)
  indicatorKey : List Char
  controlPositionKey : List Char
  indexPositionKey : List Char
  deriving DecidableEq, Repr

/-- The host checks of R313. -/
def sigabaHostChecks (a : SigabaArgs) : List (Bool × HostError) :=
  [ (anyUncoded letterCode a.text, .badText),
    (a.cipherRotorKeys.length != 5 || a.controlRotorKeys.length != 5 || a.indexRotorKeys.length != 5 ||
      a.indicatorKey.length != 5 || a.controlPositionKey.length != 5 || a.indexPositionKey.length != 5, .badLength),
    (anyUncoded romanCode a.cipherRotorKeys || anyUncoded romanCode a.controlRotorKeys ||
      anyUncoded romanCode a.indexRotorKeys || anyUncoded letterCode a.indicatorKey ||
      anyUncoded letterCode a.controlPositionKey || anyUncoded digitCode a.indexPositionKey, .unknownName) ]

/-- The sequence of R313 with the given direction. -/
def sigabaOperation (s : State) (dir : Byte) (a : SigabaArgs) : State × Except ConfigError (List Char) :=
  hostOperation s (sigabaHostChecks a)
    (joinAll
      [expandPseudo (.sigCrots a.cipherRotorKeys), expandPseudo (.sigKrots a.controlRotorKeys),
        expandPseudo (.sigIrots a.indexRotorKeys), expandPseudo (.sigInds a.indicatorKey),
        expandPseudo (.sigKposs a.controlPositionKey), expandPseudo (.sigIposs a.indexPositionKey)])
    (.start 2#8 dir) a.text

/-- `SIGABA.ENCODE` (R313). -/
def sigabaEncode (s : State) (a : SigabaArgs) : State × Except ConfigError (List Char) := sigabaOperation s 0#8 a

/-- `SIGABA.DECODE`: the same sequence with `START SIGABA, DEC` (R314). -/
def sigabaDecode (s : State) (a : SigabaArgs) : State × Except ConfigError (List Char) := sigabaOperation s 1#8 a

end Sys2Proof.Machine
end

