-- ==== Sys2Proof/Safety.lean ====
section
/-! DEFINITION. What counts as a sound state (spec/10_state.md R79, with the ranges of R39–R41) and a sound response (spec/30_encoding.md R111, spec/60_exceptions.md R340). -/

namespace Sys2Proof.Machine

/-- The Enigma working registers lie in their ranges, and `PLUG` is an involution (R39, R79). -/
abbrev EnigmaSound (par : Parameters) (r : EnigmaRegs) : Prop :=
  (∀ k : Fin 3, r.ewid[k].toNat < 5 ∧ r.ep[k].toNat < 26) ∧
  r.erid.toNat < par.eRefl.length ∧
  ∀ l : Letter, r.plug[l].toNat < 26 ∧ plugPass r (plugPass r l) = l

/-- The M-209 working registers lie in their ranges (R40, R79). -/
abbrev M209Sound (r : M209Regs) : Prop :=
  (∀ w : Fin 6, r.act[w].toNat < wheelLength w) ∧
  (∀ b : Fin 27, r.la[b].toNat ≤ 6 ∧ r.lb[b].toNat ≤ 6) ∧
  r.mkReg.toNat ≤ 27

/-- The SIGABA working registers lie in their ranges (R41, R79). -/
abbrev SigabaSound (r : SigabaRegs) : Prop :=
  (∀ j : Fin 5, r.cid[j].toNat < 10 ∧ r.kid[j].toNat < 10 ∧ r.xid[j].toNat < 5) ∧
  (∀ j : Fin 5, r.cp[j].toNat < 26 ∧ r.kp[j].toNat < 26 ∧ r.ip[j].toNat < 10) ∧
  r.cad.toNat < 676

/-- The invariants of R79, each while its machine runs. -/
abbrev State.Sound (s : State) : Prop :=
  (s.mode = .enigma → EnigmaSound s.par s.eng) ∧
  (s.mode = .m209 → M209Sound s.m209) ∧
  (s.mode.isSigaba = true → SigabaSound s.sig)

/-- `RSP` holds a response of R111 and R340: bits [23:16] are 0, the status is one of 0x00..0x0E, and the data is 0 where
the status is an error. -/
abbrev State.ResponseSound (s : State) : Prop :=
  s.rsp.extractLsb' 16 8 = 0#8 ∧ (responseStatus s.rsp).toNat ≤ 0x0E ∧
  (responseStatus s.rsp ≠ 0#8 → responseData s.rsp = 0#16)

/-- The last response is `OK` (R340). -/
abbrev State.Accepted (s : State) : Prop := responseStatus s.rsp = 0#8

end Sys2Proof.Machine
end

