-- ==== Sys2Proof/WellFormed.lean ====
section
/-! DEFINITION. Well-formed commands: every field that selects a register lies in its range (spec/30_encoding.md R106, R107). An ill-formed command still has an encoding and a meaning: it reports `E_BAD_SLOT` (R107). -/

namespace Sys2Proof

/-- The slots of a `READ` group (R106); 0 for the reserved groups 9..255. -/
def readGroupSlots : Nat → Nat
  | 0 => 1
  | 1 => 3
  | 2 => 6
  | 3 => 1
  | 4 => 5
  | 5 => 5
  | 6 => 5
  | 7 => 1
  | 8 => 1
  | _ => 0

/-- The selector ranges of R107. Value fields are stored raw or checked by the command itself, so they have no check
here. -/
abbrev Instr.WellFormed : Instr → Prop
  | .nop => True
  | .sreset => True
  | .start machine dir => machine.toNat ≤ 2 ∧ dir.toNat ≤ 1
  | .endRun => True
  | .symbol _ => True
  | .read group slot => slot.toNat < readGroupSlots group.toNat
  | .engRotor slot _ => slot.toNat ≤ 2
  | .engRefl _ => True
  | .engPos slot _ => slot.toNat ≤ 2
  | .engRing slot _ => slot.toNat ≤ 2
  | .engPlug string index _ => string.toNat ≤ 1 ∧ index.toNat ≤ 9
  | .m209Key wheel _ => wheel.toNat ≤ 5
  | .m209Pin wheel pin _ => wheel.toNat ≤ 5 ∧ pin.toNat < wheelLength wheel.toNat
  | .m209Lug _ bar _ => bar.toNat ≤ 26
  | .sigCrot slot _ => slot.toNat ≤ 4
  | .sigKrot slot _ => slot.toNat ≤ 4
  | .sigIrot slot _ => slot.toNat ≤ 4
  | .sigInd slot _ => slot.toNat ≤ 4
  | .sigKpos slot _ => slot.toNat ≤ 4
  | .sigIpos slot _ => slot.toNat ≤ 4

end Sys2Proof
end

