-- ==== Sys2Proof/Certificates/Slice0/Obligations.lean ====
section
/-! DEFINITION. The statements for the provers, each from the spec's rules. Responses stand as the words of spec/30_encoding.md R111 and spec/60_exceptions.md R340: 0x02000000 is `E_BAD_SLOT` with data 0, and so on. -/

namespace Sys2Proof.Claims

open Sys2Proof.Machine

/-- The command answers with this response and changes nothing else. -/
abbrev AnswersOnly (i : Instr) (s : State) (rsp : Word32) : Prop := exec i s = .next { s with rsp := rsp }

/-- A word that names no command: `E_ILLEGAL`, and nothing else changes. -/
abbrev Illegal (w : Word32) : Prop := ∀ s : State, commandStep w s = .next { s with rsp := 0x01000000#32 }

/-- A command of shape `op ++ 0 ++ slot ++ value` that writes one register of a bank of n key registers: its word, the
three errors in their order, and its effect, which is all that changes. -/
def WritesKeyBank {n : Nat} (op : Byte) (command : Byte → Byte → Instr) (bank : KeyRegs → Vector Byte n)
    (withBank : KeyRegs → Vector Byte n → KeyRegs) : Prop :=
  (∀ slot value, encode (command slot value) = op ++ 0#8 ++ slot ++ value) ∧
  (∀ w, opField w = op → aField w ≠ 0#8 → Illegal w) ∧
  ∀ (s : State) (slot value : Byte),
    (n ≤ slot.toNat → AnswersOnly (command slot value) s 0x02000000#32) ∧
    (slot.toNat < n → s.mode ≠ .idle → AnswersOnly (command slot value) s 0x03000000#32) ∧
    (slot.toNat < n → s.mode = .idle →
      ∃ regs : Vector Byte n,
        exec (command slot value) s = .next { s with keys := withBank s.keys regs, rsp := 0#32 } ∧
        ∀ k : Fin n, regs[k] = if k.val = slot.toNat then value else (bank s.keys)[k])

/-- The common checks of `START machine`, before the machine's own: a nonzero field, a direction out of range, a run
already on. Each answers its code and changes nothing. -/
def CommonChecksFirst (machine : Byte) : Prop :=
  (∀ w, opField w = 2#8 → cField w ≠ 0#8 → Illegal w) ∧
  ∀ (s : State) (dir : Byte),
    (1 < dir.toNat → AnswersOnly (.start machine dir) s 0x02000000#32) ∧
    (dir.toNat ≤ 1 → s.mode ≠ .idle → AnswersOnly (.start machine dir) s 0x03000000#32)

/-- What `START ENIGMA` answers on these keys where a check of R190 fails, in the order of R190; none where every check
passes. -/
def enigmaVerdict (par : Parameters) (keys : KeyRegs) : Option Word32 :=
  if (∃ k : Fin 3, keys.erot[k] = 0xFF#8) ∨ keys.eref = 0xFF#8 ∨ (∃ k : Fin 3, keys.epos[k] = 0xFF#8) ∨
      (∃ k : Fin 3, keys.ering[k] = 0xFF#8) ∨ (∃ (k : Fin 2) (i : Fin 10), keys.eplug[k][i] = 0xFF#8) then
    some 0x05000000#32
  else if ∃ k : Fin 3, 5 ≤ keys.erot[k].toNat then some 0x06000000#32
  else if par.eRefl.length ≤ keys.eref.toNat then some 0x07000000#32
  else if (∃ k : Fin 3, 25 < keys.epos[k].toNat) ∨ (∃ k : Fin 3, 25 < keys.ering[k].toNat) ∨
      (∃ (k : Fin 2) (i : Fin 10), 25 < keys.eplug[k][i].toNat) then
    some 0x08000000#32
  else if ∃ (k k' : Fin 2) (i i' : Fin 10), (k ≠ k' ∨ i ≠ i') ∧ keys.eplug[k][i] = keys.eplug[k'][i'] then
    some 0x09000000#32
  else none

/-- What `START M209` answers on these keys where a check of R230 fails, in the order of R230. -/
def m209Verdict (par : Parameters) (keys : KeyRegs) : Option Word32 :=
  if ∃ w : Fin 6, keys.mkey[w] = 0xFF#8 then some 0x05000000#32
  else if ∃ w : Fin 6, 25 < keys.mkey[w].toNat then some 0x08000000#32
  else if ∃ w : Fin 6, ∀ l ∈ par.mAlpha[w], l.val ≠ keys.mkey[w].toNat then some 0x0A000000#32
  else if ∃ b : Fin 27, 6 < keys.mluga[b].toNat ∨ 6 < keys.mlugb[b].toNat then some 0x0B000000#32
  else none

/-- What `START SIGABA` answers on these keys where a check of R270 fails, in the order of R270. -/
def sigabaVerdict (keys : KeyRegs) : Option Word32 :=
  if ∃ j : Fin 5, keys.scrot[j] = 0xFF#8 ∨ keys.skrot[j] = 0xFF#8 ∨ keys.sirot[j] = 0xFF#8 ∨ keys.sind[j] = 0xFF#8 ∨
      keys.skpos[j] = 0xFF#8 ∨ keys.sipos[j] = 0xFF#8 then
    some 0x05000000#32
  else if ∃ j : Fin 5, 10 ≤ keys.scrot[j].toNat ∨ 10 ≤ keys.skrot[j].toNat ∨ 5 ≤ keys.sirot[j].toNat then
    some 0x06000000#32
  else if ∃ j : Fin 5, 25 < keys.sind[j].toNat ∨ 25 < keys.skpos[j].toNat then some 0x08000000#32
  else if ∃ j : Fin 5, 9 < keys.sipos[j].toNat then some 0x0C000000#32
  else none

/-- The letters of the plug keys i, as both plug strings hold them. -/
abbrev PlugPairIs (keys : KeyRegs) (i : Fin 10) (l m : Letter) : Prop :=
  keys.eplug[(0 : Fin 2)][i].toNat = l.val ∧ keys.eplug[(1 : Fin 2)][i].toNat = m.val

/-- Every register of the block that R78 gives a reset value has it. -/
def HasResetValues (s : State) : Prop :=
  s.mode = .idle ∧
  (∀ k : Fin 3, s.keys.erot[k] = 0xFF#8 ∧ s.keys.epos[k] = 0xFF#8 ∧ s.keys.ering[k] = 0xFF#8) ∧
  s.keys.eref = 0xFF#8 ∧
  (∀ (k : Fin 2) (i : Fin 10), s.keys.eplug[k][i] = 0xFF#8) ∧
  (∀ w : Fin 6, s.keys.mkey[w] = 0xFF#8) ∧
  (∀ w i, pinAt s.keys.mpin w i = pinAt s.par.mDefaultPins w i) ∧
  (∀ b : Fin 27, s.keys.mluga[b] = 0#8 ∧ s.keys.mlugb[b] = 0#8) ∧
  ∀ j : Fin 5, s.keys.scrot[j] = 0xFF#8 ∧ s.keys.skrot[j] = 0xFF#8 ∧ s.keys.sirot[j] = 0xFF#8 ∧
    s.keys.sind[j] = 0xFF#8 ∧ s.keys.skpos[j] = 0xFF#8 ∧ s.keys.sipos[j] = 0xFF#8

/-- `START machine, dir` at `s` began a run and left `t`. -/
abbrev Started (machine dir : Byte) (s t : State) : Prop :=
  s.mode = .idle ∧ exec (.start machine dir) s = .next t ∧ t.mode ≠ .idle

/-- Every code of a message is a letter (R101). -/
abbrev IsMessage (m : List Byte) : Prop := ∀ x ∈ m, x.toNat ≤ 25

/-- The positions of the Enigma bank after each symbol of a message. -/
def enigmaPositions (s : State) : List Byte → List (Vector (BitVec 5) 3)
  | [] => []
  | x :: xs =>
    let t := (portStep s (encode (.symbol x))).1
    t.eng.ep :: enigmaPositions t xs

/-- `MK` after each symbol of a message. -/
def keystreamValues (s : State) : List Byte → List (BitVec 6)
  | [] => []
  | x :: xs =>
    let t := (portStep s (encode (.symbol x))).1
    t.m209.mkReg :: keystreamValues t xs

/-- The SIGABA working registers after each symbol of a message. -/
def sigabaStates (s : State) : List Byte → List SigabaRegs
  | [] => []
  | x :: xs =>
    let t := (portStep s (encode (.symbol x))).1
    t.sig :: sigabaStates t xs

/-- The control positions and the cadence after n steps of the control bank. -/
def controlAfter (n : Nat) (kp : Vector (BitVec 5) 5) (cad : BitVec 10) : Vector (BitVec 5) 5 × BitVec 10 :=
  (fun c => stepSigabaControl c.1 c.2)^[n] (kp, cad)

/-- `now` and `cad` are the control positions and the cadence n symbols after the positions `start` with `CAD` = 0: slots 2,
3 and 1 moved once every 1, 26 and 676 symbols, slots 0 and 4 never, and `CAD` = n mod 676. -/
abbrev IsControlAfter (n : Nat) (start now : Vector (BitVec 5) 5) (cad : BitVec 10) : Prop :=
  cad.toNat = n % 676 ∧
  now[(2 : Fin 5)].toNat = (start[(2 : Fin 5)].toNat + n) % 26 ∧
  now[(3 : Fin 5)].toNat = (start[(3 : Fin 5)].toNat + n / 26) % 26 ∧
  now[(1 : Fin 5)].toNat = (start[(1 : Fin 5)].toNat + n / 676) % 26 ∧
  now[(0 : Fin 5)] = start[(0 : Fin 5)] ∧ now[(4 : Fin 5)] = start[(4 : Fin 5)]

/-- A command that writes a key register. -/
def IsKeyWrite : Instr → Prop
  | .engRotor _ _ | .engRefl _ | .engPos _ _ | .engRing _ _ | .engPlug _ _ _ | .m209Key _ _ | .m209Pin _ _ _
  | .m209Lug _ _ _ | .sigCrot _ _ | .sigKrot _ _ | .sigIrot _ _ | .sigInd _ _ | .sigKpos _ _ | .sigIpos _ _ => True
  | .nop | .sreset | .start _ _ | .endRun | .symbol _ | .read _ _ => False

/-- The opcodes of R105, each with the fields it marks "0": those of a, b, c that must be zero. -/
def mustBeZero : List (Byte × Bool × Bool × Bool) :=
  [ (0x00#8, true, true, true), (0x01#8, true, true, true), (0x02#8, false, false, true), (0x03#8, true, true, true),
    (0x04#8, true, true, false), (0x05#8, false, false, true), (0x10#8, true, false, false),
    (0x11#8, true, true, false), (0x12#8, true, false, false), (0x13#8, true, false, false),
    (0x14#8, false, false, false), (0x20#8, true, false, false), (0x21#8, false, false, false),
    (0x22#8, false, false, false), (0x30#8, true, false, false), (0x31#8, true, false, false),
    (0x32#8, true, false, false), (0x33#8, true, false, false), (0x34#8, true, false, false),
    (0x35#8, true, false, false) ]

/-- The same block with other key registers. -/
abbrev withOtherKeys (s : State) (keys : KeyRegs) : State := { s with keys := keys }

end Sys2Proof.Claims

open Sys2Proof Sys2Proof.Machine Sys2Proof.Claims

/-! ### Encoding (30_encoding) -/

/-- Words of the syntax table R113 and of the rules' own examples decode to the commands they stand for: one or more of
each family. -/
def Obligations.TableWordsDecode : Prop :=
  decode 0x00000000#32 = .ok .nop ∧ decode 0x02020100#32 = .ok (.start 2#8 1#8) ∧
  decode 0x04000007#32 = .ok (.symbol 7#8) ∧ decode 0x05010100#32 = .ok (.read 1#8 1#8) ∧
  decode 0x10000202#32 = .ok (.engRotor 2#8 2#8) ∧ decode 0x1401000A#32 = .ok (.engPlug 1#8 0#8 10#8) ∧
  decode 0x21000301#32 = .ok (.m209Pin 0#8 3#8 1#8) ∧ decode 0x22011A06#32 = .ok (.m209Lug 1#8 26#8 6#8) ∧
  decode 0x30000108#32 = .ok (.sigCrot 1#8 8#8) ∧ decode 0x35000407#32 = .ok (.sigIpos 4#8 7#8)

/-- Decoding an encoded command gives it back, whatever its operands (R100, R105, R110). -/
def Obligations.DecodeOfEncode : Prop := ∀ i : Instr, decode (encode i) = .ok i

/-- A word that decodes to a command is that command's encoding: no two words stand for one command, and no bit is
dropped (R100, R105). -/
def Obligations.EncodeOfDecode : Prop := ∀ (w : Word32) (i : Instr), decode w = .ok i → encode i = w

/-- R108: every reserved opcode, and every nonzero value in a field that must be zero, raises `E_ILLEGAL` and changes no
state. -/
def Obligations.ReservedWordsAreIllegal : Prop :=
  (∀ w : Word32,
    (6 ≤ (opField w).toNat ∧ (opField w).toNat ≤ 0x0F) ∨ (0x15 ≤ (opField w).toNat ∧ (opField w).toNat ≤ 0x1F) ∨
      (0x23 ≤ (opField w).toNat ∧ (opField w).toNat ≤ 0x2F) ∨ 0x36 ≤ (opField w).toNat → Illegal w) ∧
  ∀ w : Word32, ∀ row ∈ mustBeZero, opField w = row.1 →
    (row.2.1 = true ∧ aField w ≠ 0#8) ∨ (row.2.2.1 = true ∧ bField w ≠ 0#8) ∨ (row.2.2.2 = true ∧ cField w ≠ 0#8) →
    Illegal w

/-- The byte lanes of a word: lane k carries bits [8k+7:8k], the four lanes make the word again,
and the decoder on lanes is the decoder on the word (R84). -/
def Obligations.ByteLanesLittleEndian : Prop :=
  ∀ w : Word32,
    wordLanes w = [w.extractLsb' 0 8, w.extractLsb' 8 8, w.extractLsb' 16 8, w.extractLsb' 24 8] ∧
    wordOfLanes (cField w) (bField w) (aField w) (opField w) = w ∧
    decodeBytes (wordLanes w) = decode w

/-! ### The port, the bus and the step (20_memory, 70_reset_and_hazards) -/

/-- A step takes the host's oldest access. Where that is a command whose word decodes to `i`, the step is `exec` of `i` on
the state that no longer waits for it; so is a write of that word to `CMD`. The queue of accesses, and that a step takes its
oldest, is the model's choice (log 1). -/
def Obligations.StepRunsTheDecodedCommand : Prop :=
  ∀ (s : State) (w : Word32) (rest : List PortEvent) (i : Instr), decode w = .ok i →
    (s.inbox = .command w :: rest → step s = exec i { s with inbox := rest }) ∧
    (s.par.coreBase % 4 = 0 → s.inbox = .write s.par.coreBase 4 w :: rest → step s = exec i { s with inbox := rest })

/-- With no access waiting the block waits and holds its state (R354, R371). -/
def Obligations.StepWaitsForTheHost : Prop := ∀ s : State, s.inbox = [] → step s = .next s

/-- The bus binding (R83, R85): a 32-bit write of `CMD` is one command step, whose response stands in `RSP`; a 32-bit read
of `RSP` returns the last response and changes nothing else (the returned word stands in `rdata`, a field of the model's
own, log 9); every other access has no step: another width, a misaligned
address, a read of `CMD`, a write of `RSP`, any other address (one outside the window is refused by the model's choice,
log 8). -/
def Obligations.BusAccesses : Prop :=
  ∀ s : State, s.par.coreBase % 8 = 0 →
    (∀ data, serve (.write s.par.coreBase 4 data) s = commandStep data s) ∧
    serve (.read (s.par.coreBase + 4) 4) s = .next { s with rdata := s.rsp } ∧
    ∀ addr size : Nat,
      (∀ data, size ≠ 4 ∨ addr % 4 ≠ 0 ∨ addr ≠ s.par.coreBase →
        serve (.write addr size data) s = .fault .busAccessNotAdmitted) ∧
      (size ≠ 4 ∨ addr % 4 ≠ 0 ∨ addr ≠ s.par.coreBase + 4 →
        serve (.read addr size) s = .fault .busAccessNotAdmitted)

/-- Every word on the port is answered, in every state, with a response of R111 and R340 (that
every command terminates is an inference the spec marks as its own, R389). -/
def Obligations.EveryCommandIsAnswered : Prop :=
  ∀ (w : Word32) (s : State), ∃ t, commandStep w s = .next t ∧ t.ResponseSound

/-- The state right after reset, for every parameter set and for the installed one: every register R78 gives a value has
it, and `RSP` reads 0 (R78, R370). -/
def Obligations.ResetValues : Prop :=
  (∀ par, HasResetValues (State.resetWith par) ∧ (State.resetWith par).rsp = 0#32 ∧ (State.resetWith par).par = par) ∧
  HasResetValues State.reset ∧ State.reset.rsp = 0#32 ∧ State.reset.par.WellFormed

/-- A hardware reset and `SRESET` leave the same block state, with every register R78 gives a value at that value, and
`RSP` 0; the working registers are those of `State.resetWith` (values of the model, log 4); that the parameters and the waiting
accesses stay is the model's choice (log 10) (R301, R370). -/
def Obligations.BothResetsResetTheBlock : Prop :=
  ∀ s : State, ∃ t, exec .sreset s = .next t ∧ serve .hardReset s = .next t ∧ HasResetValues t ∧ t.rsp = 0#32 ∧
    t.par = s.par ∧ t.eng = (State.resetWith s.par).eng ∧ t.m209 = (State.resetWith s.par).m209 ∧
    t.sig = (State.resetWith s.par).sig ∧ t.inbox = s.inbox

/-! ### Key writes (41_enigma, 42_m209, 43_sigaba) -/

/-- R180, R182, R183: `ENG.ROTOR`, `ENG.POS` and `ENG.RING` write one register of their bank raw, and nothing else. -/
def Obligations.EnigmaSlotKeyWrites : Prop :=
  WritesKeyBank 0x10#8 .engRotor (·.erot) (fun keys regs => { keys with erot := regs }) ∧
  WritesKeyBank 0x12#8 .engPos (·.epos) (fun keys regs => { keys with epos := regs }) ∧
  WritesKeyBank 0x13#8 .engRing (·.ering) (fun keys regs => { keys with ering := regs })

/-- R181: `ENG.REFL` writes `EREF` raw, and nothing else. -/
def Obligations.EnigmaReflectorWrite : Prop :=
  (∀ code, encode (.engRefl code) = 0x11#8 ++ 0#8 ++ 0#8 ++ code) ∧
  (∀ w, opField w = 0x11#8 → aField w ≠ 0#8 ∨ bField w ≠ 0#8 → Illegal w) ∧
  ∀ (s : State) (code : Byte),
    (s.mode ≠ .idle → AnswersOnly (.engRefl code) s 0x03000000#32) ∧
    (s.mode = .idle → exec (.engRefl code) s = .next { s with keys := { s.keys with eref := code }, rsp := 0#32 })

/-- R184: `ENG.PLUG` writes one letter of one plug string raw, and nothing else. -/
def Obligations.EnigmaPlugWrite : Prop :=
  (∀ string index letter, encode (.engPlug string index letter) = 0x14#8 ++ string ++ index ++ letter) ∧
  ∀ (s : State) (string index letter : Byte),
    (1 < string.toNat ∨ 9 < index.toNat → AnswersOnly (.engPlug string index letter) s 0x02000000#32) ∧
    (string.toNat ≤ 1 → index.toNat ≤ 9 → s.mode ≠ .idle →
      AnswersOnly (.engPlug string index letter) s 0x03000000#32) ∧
    (string.toNat ≤ 1 → index.toNat ≤ 9 → s.mode = .idle →
      ∃ regs : Vector (Vector Byte 10) 2,
        exec (.engPlug string index letter) s =
          .next { s with keys := { s.keys with eplug := regs }, rsp := 0#32 } ∧
        ∀ (k : Fin 2) (i : Fin 10), regs[k][i] =
          if k.val = string.toNat ∧ i.val = index.toNat then letter else s.keys.eplug[k][i])

/-- R220: `M209.KEY` writes one wheel-key register raw, and nothing else. -/
def Obligations.M209WheelKeyWrite : Prop :=
  WritesKeyBank 0x20#8 .m209Key (·.mkey) (fun keys regs => { keys with mkey := regs })

/-- R221: `M209.PIN` writes one pin, and nothing else; its errors come in the order selector, mode, bit. -/
def Obligations.M209PinWrite : Prop :=
  (∀ wheel pin bit, encode (.m209Pin wheel pin bit) = 0x21#8 ++ wheel ++ pin ++ bit) ∧
  ∀ (s : State) (wheel pin bit : Byte),
    (5 < wheel.toNat ∨ wheelLength wheel.toNat ≤ pin.toNat →
      AnswersOnly (.m209Pin wheel pin bit) s 0x02000000#32) ∧
    (wheel.toNat ≤ 5 → pin.toNat < wheelLength wheel.toNat → s.mode ≠ .idle →
      AnswersOnly (.m209Pin wheel pin bit) s 0x03000000#32) ∧
    (wheel.toNat ≤ 5 → pin.toNat < wheelLength wheel.toNat → s.mode = .idle → 1 < bit.toNat →
      AnswersOnly (.m209Pin wheel pin bit) s 0x0D000000#32) ∧
    (wheel.toNat ≤ 5 → pin.toNat < wheelLength wheel.toNat → s.mode = .idle → bit.toNat ≤ 1 →
      ∃ pins : PinBank,
        exec (.m209Pin wheel pin bit) s = .next { s with keys := { s.keys with mpin := pins }, rsp := 0#32 } ∧
        ∀ w i, pinAt pins w i =
          if w = wheel.toNat ∧ i = pin.toNat then decide (bit.toNat = 1) else pinAt s.keys.mpin w i)

/-- R222: `M209.LUG` writes both register indices of one bar raw, and nothing else. -/
def Obligations.M209LugWrite : Prop :=
  (∀ regA bar regB, encode (.m209Lug regA bar regB) = 0x22#8 ++ regA ++ bar ++ regB) ∧
  ∀ (s : State) (regA bar regB : Byte),
    (26 < bar.toNat → AnswersOnly (.m209Lug regA bar regB) s 0x02000000#32) ∧
    (bar.toNat ≤ 26 → s.mode ≠ .idle → AnswersOnly (.m209Lug regA bar regB) s 0x03000000#32) ∧
    (bar.toNat ≤ 26 → s.mode = .idle →
      ∃ as bs : Vector Byte 27,
        exec (.m209Lug regA bar regB) s =
          .next { s with keys := { s.keys with mluga := as, mlugb := bs }, rsp := 0#32 } ∧
        ∀ k : Fin 27, as[k] = (if k.val = bar.toNat then regA else s.keys.mluga[k]) ∧
          bs[k] = if k.val = bar.toNat then regB else s.keys.mlugb[k])

/-- R260–R265: the six SIGABA key writes write one register of their bank raw, and nothing else. -/
def Obligations.SigabaKeyWrites : Prop :=
  WritesKeyBank 0x30#8 .sigCrot (·.scrot) (fun keys regs => { keys with scrot := regs }) ∧
  WritesKeyBank 0x31#8 .sigKrot (·.skrot) (fun keys regs => { keys with skrot := regs }) ∧
  WritesKeyBank 0x32#8 .sigIrot (·.sirot) (fun keys regs => { keys with sirot := regs }) ∧
  WritesKeyBank 0x33#8 .sigInd (·.sind) (fun keys regs => { keys with sind := regs }) ∧
  WritesKeyBank 0x34#8 .sigKpos (·.skpos) (fun keys regs => { keys with skpos := regs }) ∧
  WritesKeyBank 0x35#8 .sigIpos (·.sipos) (fun keys regs => { keys with sipos := regs })

/-! ### The common commands (44_orchestrator) -/

/-- R300: `NOP` answers 0 and changes nothing, in every mode; any nonzero field of its opcode is illegal. -/
def Obligations.NopDoesNothing : Prop :=
  encode .nop = 0x00000000#32 ∧ (∀ s : State, AnswersOnly .nop s 0#32) ∧
  ∀ w, opField w = 0#8 → aField w ≠ 0#8 ∨ bField w ≠ 0#8 ∨ cField w ≠ 0#8 → Illegal w

/-- The order of the checks of `START` and `SYMBOL` (R343): a selector out of range comes before a run already on; no run
comes before a symbol that is no letter. Each answers its code and changes nothing (R302, R304). -/
def Obligations.StartAndSymbolRefusals : Prop :=
  (∀ (s : State) (machine dir : Byte),
    (2 < machine.toNat ∨ 1 < dir.toNat → AnswersOnly (.start machine dir) s 0x02000000#32) ∧
    (machine.toNat ≤ 2 → dir.toNat ≤ 1 → s.mode ≠ .idle → AnswersOnly (.start machine dir) s 0x03000000#32)) ∧
  ∀ (s : State) (x : Byte),
    (s.mode = .idle → AnswersOnly (.symbol x) s 0x04000000#32) ∧
    (s.mode ≠ .idle → 25 < x.toNat → AnswersOnly (.symbol x) s 0x0E000000#32)

/-- R190: after the common checks, `START ENIGMA` reports the first of its checks that fails and changes no state. -/
def Obligations.StartEnigmaValidates : Prop :=
  CommonChecksFirst 0#8 ∧
  ∀ (s : State) (dir : Byte) (rsp : Word32), dir.toNat ≤ 1 → s.mode = .idle → enigmaVerdict s.par s.keys = some rsp →
    AnswersOnly (.start 0#8 dir) s rsp

/-- R191: `START ENIGMA` with no run and every check passed builds the Enigma working registers, sets `MODE`, and changes
nothing else. That the M-209 and SIGABA working registers stay as they were is the model's reading (log 14). -/
def Obligations.StartEnigmaSetsUp : Prop :=
  ∀ (s : State) (dir : Byte), dir.toNat ≤ 1 → s.mode = .idle → enigmaVerdict s.par s.keys = none →
    ∃ r : EnigmaRegs,
      exec (.start 0#8 dir) s = .next { s with mode := .enigma, eng := r, rsp := 0#32 } ∧
      (∀ k : Fin 3, r.ewid[k].toNat = s.keys.erot[2 - k.val].toNat ∧
        (r.ep[k].toNat : Int) = ((s.keys.epos[2 - k.val].toNat : Int) - s.keys.ering[2 - k.val].toNat) % 26) ∧
      r.erid = s.keys.eref ∧
      (∀ (i : Fin 10) (l m : Letter), PlugPairIs s.keys i l m → r.plug[l].toNat = m.val ∧ r.plug[m].toNat = l.val) ∧
      ∀ l : Letter, (∀ (k : Fin 2) (i : Fin 10), s.keys.eplug[k][i].toNat ≠ l.val) → r.plug[l].toNat = l.val

/-- R230: after the common checks, `START M209` reports the first of its checks that fails and changes no state. -/
def Obligations.StartM209Validates : Prop :=
  CommonChecksFirst 1#8 ∧
  ∀ (s : State) (dir : Byte) (rsp : Word32), dir.toNat ≤ 1 → s.mode = .idle → m209Verdict s.par s.keys = some rsp →
    AnswersOnly (.start 1#8 dir) s rsp

/-- R231: `START M209` with no run and every check passed builds the M-209 working registers, sets `MODE`, and changes
nothing else. That the Enigma and SIGABA working registers stay as they were is the model's reading (log 14). -/
def Obligations.StartM209SetsUp : Prop :=
  ∀ (s : State) (dir : Byte), dir.toNat ≤ 1 → s.mode = .idle → m209Verdict s.par s.keys = none →
    ∃ r : M209Regs,
      exec (.start 1#8 dir) s = .next { s with mode := .m209, m209 := r, rsp := 0#32 } ∧
      (∀ (w : Fin 6) (l : Letter), l.val = s.keys.mkey[w].toNat →
        r.act[w].toNat = (#v[15, 14, 13, 12, 11, 10][w] + (s.par.mAlpha[w]).idxOf l) % wheelLength w) ∧
      (∀ w i, pinAt r.ps w i = pinAt s.keys.mpin w i) ∧
      (∀ b : Fin 27, r.la[b].toNat = s.keys.mluga[b].toNat ∧ r.lb[b].toNat = s.keys.mlugb[b].toNat) ∧
      r.mkReg = 0#6

/-- R270: after the common checks, `START SIGABA` reports the first of its checks that fails and changes no state. -/
def Obligations.StartSigabaValidates : Prop :=
  CommonChecksFirst 2#8 ∧
  ∀ (s : State) (dir : Byte) (rsp : Word32), dir.toNat ≤ 1 → s.mode = .idle → sigabaVerdict s.keys = some rsp →
    AnswersOnly (.start 2#8 dir) s rsp

/-- R271: `START SIGABA` with no run and every check passed copies the keys into the working registers, clears `CAD` and
`ADV`, sets `MODE` by the direction, and changes nothing else. That the Enigma and M-209 working registers stay as they were
is the model's reading (log 14). -/
def Obligations.StartSigabaSetsUp : Prop :=
  ∀ (s : State) (dir : Byte), dir.toNat ≤ 1 → s.mode = .idle → sigabaVerdict s.keys = none →
    ∃ r : SigabaRegs,
      exec (.start 2#8 dir) s =
        .next { s with mode := if dir = 0#8 then .sigabaEnc else .sigabaDec, sig := r, rsp := 0#32 } ∧
      (∀ j : Fin 5, r.cid[j].toNat = s.keys.scrot[j].toNat ∧ r.kid[j].toNat = s.keys.skrot[j].toNat ∧
        r.xid[j].toNat = s.keys.sirot[j].toNat ∧ r.cp[j].toNat = s.keys.sind[j].toNat ∧
        r.kp[j].toNat = s.keys.skpos[j].toNat ∧ r.ip[j].toNat = s.keys.sipos[j].toNat) ∧
      r.cad = 0#10 ∧ r.adv = 0#5

/-- R303: `END` with no run changes nothing; `END` of a run sets `MODE` to `IDLE`, leaves the key registers as they are,
and no working register can be read after it. -/
def Obligations.EndEndsTheRun : Prop :=
  encode .endRun = 0x03000000#32 ∧
  (∀ w, opField w = 3#8 → aField w ≠ 0#8 ∨ bField w ≠ 0#8 ∨ cField w ≠ 0#8 → Illegal w) ∧
  (∀ s : State, s.mode = .idle → AnswersOnly .endRun s 0#32) ∧
  ∀ s : State, s.mode ≠ .idle → ∃ t, exec .endRun s = .next t ∧ t.mode = .idle ∧ t.rsp = 0#32 ∧
    t.keys = s.keys ∧ t.par = s.par ∧ t.inbox = s.inbox ∧ t.rdata = s.rdata ∧
    ∀ group slot : Byte, 1 ≤ group.toNat → slot.toNat < readGroupSlots group.toNat →
      AnswersOnly (.read group slot) t 0x04000000#32

/-- R193: one Enigma symbol: plugboard, step, forward through slots 0 to 2 at the stepped positions, reflector, backward,
plugboard; only `EP` and the response change. With the working registers in range the lookups are those of R8, R39 and
R147: slot k's wiring is `E_WIRING[EWID[k]]`, the reflector is `E_REFL[ERID]`, and the plug image of l is `PLUG[l]`. -/
def Obligations.EnigmaSymbol : Prop :=
  (∀ (s : State) (x : Letter), s.mode = .enigma →
    let ep := stepEnigma s.par s.eng
    let pass := fun (k : Fin 3) (invert : Bool) (y : Letter) =>
      rotorPass y (enigmaWiring s.par s.eng.ewid[k]) ep[k].toNat invert
    let forward := pass 2 false (pass 1 false (pass 0 false (plugPass s.eng x)))
    let back := pass 0 true (pass 1 true (pass 2 true ((enigmaReflector s.par s.eng.erid)[forward])))
    exec (.symbol (BitVec.ofNat 8 x.val)) s =
      .next { s with eng := { s.eng with ep := ep }, rsp := BitVec.ofNat 32 (plugPass s.eng back).val }) ∧
  ∀ s : State, s.Sound → s.mode = .enigma →
    (∀ k : Fin 3, s.par.eWiring[s.eng.ewid[k].toNat]? = some (enigmaWiring s.par s.eng.ewid[k])) ∧
    s.par.eRefl[s.eng.erid.toNat]? = some (enigmaReflector s.par s.eng.erid) ∧
    ∀ l : Letter, (plugPass s.eng l).val = s.eng.plug[l].toNat

/-- R233: one M-209 symbol: K counts the bars that name a wheel whose active pin is 1, before any wheel advances; the
output is (25 + K - p) mod 26; only `MK`, `ACT` and the response change. -/
def Obligations.M209Symbol : Prop :=
  ∀ (s : State) (p : Letter), s.mode = .m209 →
    let r := s.m209
    let k := (Finset.univ.filter fun b : Fin 27 => ∃ w : Fin 6,
      (r.la[b].toNat = w.val + 1 ∨ r.lb[b].toNat = w.val + 1) ∧ pinAt r.ps w.val r.act[w].toNat = true).card
    ∃ act : Vector (BitVec 5) 6,
      exec (.symbol (BitVec.ofNat 8 p.val)) s =
        .next { s with
          m209 := { r with mkReg := BitVec.ofNat 6 k, act := act }
          rsp := BitVec.ofNat 32 (((25 + k - p.val : Int) % 26).toNat) } ∧
      ∀ w : Fin 6, act[w].toNat = (r.act[w].toNat + 1) % wheelLength w

/-- R280: one SIGABA symbol, its six steps: cipher bank at the positions before the advance, maze, control advance, digit
classes, index bank, cipher advance; only `CP`, `KP`, `CAD`, `ADV` and the response change. With the working registers in
range the lookups are those of R8 and R41: `S_WIRING[CID[j]]`, `S_WIRING[KID[j]]` and `S_IWIRING[XID[j]]`. -/
def Obligations.SigabaSymbol : Prop :=
  (∀ (s : State) (x : Letter), s.mode.isSigaba = true →
    let r := s.sig
    let cipher := fun (invert : Bool) (j : Fin 5) (y : Letter) =>
      rotorPass y (largeWiring s.par r.cid[j]) r.cp[j].toNat invert
    let output :=
      if s.mode = .sigabaEnc then
        cipher false 4 (cipher false 3 (cipher false 2 (cipher false 1 (cipher false 0 x))))
      else cipher true 0 (cipher true 1 (cipher true 2 (cipher true 3 (cipher true 4 x))))
    let control := fun (j : Fin 5) (y : Letter) => rotorPass y (largeWiring s.par r.kid[j]) r.kp[j].toNat false
    let index := fun (j : Fin 5) (d : Digit) => rotorPass d (indexWiring s.par r.xid[j]) r.ip[j].toNat false
    let maze := fun marker : Letter => control 4 (control 3 (control 2 (control 1 (control 0 marker))))
    let final := fun marker : Letter =>
      index 4 (index 3 (index 2 (index 1 (index 0 s.par.sClass[maze marker]))))
    let moved := stepSigabaControl r.kp r.cad
    let advanced := stepSigabaCipher r.cp #v[final 5, final 6, final 7, final 8]
    exec (.symbol (BitVec.ofNat 8 x.val)) s =
      .next { s with
        sig := { r with cp := advanced.1, kp := moved.1, cad := moved.2, adv := advanced.2 }
        rsp := BitVec.ofNat 32 output.val }) ∧
  ∀ s : State, s.Sound → s.mode.isSigaba = true → ∀ j : Fin 5,
    s.par.sWiring[s.sig.cid[j].toNat]? = some (largeWiring s.par s.sig.cid[j]) ∧
    s.par.sWiring[s.sig.kid[j].toNat]? = some (largeWiring s.par s.sig.kid[j]) ∧
    s.par.sIWiring[s.sig.xid[j].toNat]? = some (indexWiring s.par s.sig.xid[j])

/-- An inference the spec marks as its own (R345): no error can occur inside a run: during a run every letter is answered `OK`, with a letter. -/
def Obligations.SymbolNeverFailsInARun : Prop :=
  ∀ (s : State) (x : Byte), s.Sound → s.mode ≠ .idle → x.toNat ≤ 25 →
    ∃ t, exec (.symbol x) s = .next t ∧ t.Sound ∧ t.mode = s.mode ∧ ∃ y : Letter, t.rsp = BitVec.ofNat 32 y.val

/-- R305: `READ` answers the register that R106 lists, zero-extended (`MODE` as R30 codes it), refuses a group or slot that R106 does not list and
a group of no running machine, in this order, and changes no state. -/
def Obligations.ReadReturnsTheRegister : Prop :=
  (∀ w, opField w = 5#8 → cField w ≠ 0#8 → Illegal w) ∧
  ∀ (s : State) (group slot : Byte),
    (readGroupSlots group.toNat ≤ slot.toNat → AnswersOnly (.read group slot) s 0x02000000#32) ∧
    AnswersOnly (.read 0#8 0#8) s (match s.mode with
      | .idle => 0#32
      | .enigma => 1#32
      | .m209 => 2#32
      | .sigabaEnc => 3#32
      | .sigabaDec => 4#32) ∧
    (∀ k : Fin 3, AnswersOnly (.read 1#8 (BitVec.ofNat 8 k.val)) s
      (if s.mode = .enigma then s.eng.ep[k].setWidth 32 else 0x04000000#32)) ∧
    (∀ w : Fin 6, AnswersOnly (.read 2#8 (BitVec.ofNat 8 w.val)) s
      (if s.mode = .m209 then s.m209.act[w].setWidth 32 else 0x04000000#32)) ∧
    AnswersOnly (.read 3#8 0#8) s (if s.mode = .m209 then s.m209.mkReg.setWidth 32 else 0x04000000#32) ∧
    (∀ j : Fin 5, AnswersOnly (.read 4#8 (BitVec.ofNat 8 j.val)) s
      (if s.mode.isSigaba = true then s.sig.cp[j].setWidth 32 else 0x04000000#32)) ∧
    (∀ j : Fin 5, AnswersOnly (.read 5#8 (BitVec.ofNat 8 j.val)) s
      (if s.mode.isSigaba = true then s.sig.kp[j].setWidth 32 else 0x04000000#32)) ∧
    (∀ j : Fin 5, AnswersOnly (.read 6#8 (BitVec.ofNat 8 j.val)) s
      (if s.mode.isSigaba = true then s.sig.ip[j].setWidth 32 else 0x04000000#32)) ∧
    AnswersOnly (.read 7#8 0#8) s (if s.mode.isSigaba = true then s.sig.cad.setWidth 32 else 0x04000000#32) ∧
    AnswersOnly (.read 8#8 0#8) s (if s.mode.isSigaba = true then s.sig.adv.setWidth 32 else 0x04000000#32)

/-! ### The engine (40_rotor_stepping_engine) -/

/-- The rotor pass in both directions, for any integer position (R141, R142); the inverse looks up the symbol wired to the
entry. It is periodic in the position, and the identity wiring passes every symbol unchanged (inferences the spec marks as
its own in R141). -/
def Obligations.RotorPassComputes : Prop :=
  ∀ (n : Nat) [NeZero n] (w : Wiring n) (s : Fin n) (p : Int),
    (∀ e : Fin n, (e.val : Int) = (s.val + p) % n →
      ((rotorPass s w p false).val : Int) = ((w[e].val : Int) - p) % n) ∧
    (w.IsPermutation → ∀ e o : Fin n, (e.val : Int) = (s.val + p) % n → w[o] = e →
      ((rotorPass s w p true).val : Int) = ((o.val : Int) - p) % n) ∧
    (∀ invert, rotorPass s w p invert = rotorPass s w (p % n) invert) ∧
    ((∀ i : Fin n, w[i] = i) → ∀ invert, rotorPass s w p invert = s)

/-- An inference the spec marks as its own (R143): at one position the two directions of the pass undo each other, for every permutation, so each is a bijection;
both are periodic in the position with period n. -/
def Obligations.RotorPassInverts : Prop :=
  ∀ (n : Nat) [NeZero n] (w : Wiring n) (p : Int), w.IsPermutation →
    (∀ s, rotorPass (rotorPass s w p false) w p true = s) ∧
    (∀ s, rotorPass (rotorPass s w p true) w p false = s) ∧
    (Function.Bijective fun s => rotorPass s w p false) ∧
    ∀ s invert, rotorPass s w (p + n) invert = rotorPass s w p invert

/-- R145: one `StepEnigma`, its lines in order, each seeing the results of those before it. With `EWID[k]` in range the
notch of slot k is `E_NOTCH[EWID[k]]` (R8, R39). -/
def Obligations.EnigmaStepComputes : Prop :=
  (∀ (par : Parameters) (r : EnigmaRegs),
    let n0 := (enigmaNotch par r.ewid[(0 : Fin 3)]).val
    let n1 := (enigmaNotch par r.ewid[(1 : Fin 3)]).val
    let e0 := (r.ep[(0 : Fin 3)].toNat + 1) % 26
    let e1 := if e0 = n0 then (r.ep[(1 : Fin 3)].toNat + 1) % 26 else r.ep[(1 : Fin 3)].toNat
    let q := stepEnigma par r
    q[(0 : Fin 3)].toNat = e0 ∧ q[(1 : Fin 3)].toNat = (if e1 = n1 then (e1 + 1) % 26 else e1) ∧
      q[(2 : Fin 3)].toNat = if e1 = n1 then (r.ep[(2 : Fin 3)].toNat + 1) % 26 else r.ep[(2 : Fin 3)].toNat) ∧
  ∀ s : State, s.Sound → s.mode = .enigma → ∀ k : Fin 3,
    s.par.eNotch[s.eng.ewid[k].toNat]? = some (enigmaNotch s.par s.eng.ewid[k])

/-- The cases of `StepEnigma` the spec infers (R146), for positions in range: (a) no carry, (b) single carry, (c) double step in one
symbol, (d) and (e) a middle rotor that starts at its notch, (f) the middle rotor never ends at its notch, (g) the notch
of slot 2 is never read. Rotors of equal notches (h) are no exception, since nothing excludes them. -/
def Obligations.EnigmaStepCases : Prop :=
  ∀ (par : Parameters) (r : EnigmaRegs), (∀ k : Fin 3, r.ep[k].toNat < 26) →
    let n0 := (enigmaNotch par r.ewid[(0 : Fin 3)]).val
    let n1 := (enigmaNotch par r.ewid[(1 : Fin 3)]).val
    let p0 := r.ep[(0 : Fin 3)].toNat
    let p1 := r.ep[(1 : Fin 3)].toNat
    let p2 := r.ep[(2 : Fin 3)].toNat
    let q := stepEnigma par r
    let moved := fun d1 d2 : Nat => q[(0 : Fin 3)].toNat = (p0 + 1) % 26 ∧ q[(1 : Fin 3)].toNat = (p1 + d1) % 26 ∧
      q[(2 : Fin 3)].toNat = (p2 + d2) % 26
    ((p0 + 1) % 26 ≠ n0 → p1 ≠ n1 → moved 0 0) ∧
    ((p0 + 1) % 26 = n0 → (p1 + 1) % 26 ≠ n1 → moved 1 0) ∧
    ((p0 + 1) % 26 = n0 → (p1 + 1) % 26 = n1 → moved 2 1) ∧
    ((p0 + 1) % 26 ≠ n0 → p1 = n1 → moved 1 1) ∧
    ((p0 + 1) % 26 = n0 → p1 = n1 → moved 1 0) ∧
    q[(1 : Fin 3)].toNat ≠ n1 ∧
    ∀ rotor : BitVec 3, stepEnigma par { r with ewid := r.ewid.set 2 rotor } = q

/-- Every M-209 wheel advances by one modulo its own length at every step (R148); and, an inference the spec marks as its
own, the joint state first returns to its start after 101,405,850 steps. -/
def Obligations.M209WheelPeriod : Prop :=
  ∀ act : Vector (BitVec 5) 6,
    (∀ w : Fin 6, (stepM209 act)[w].toNat = (act[w].toNat + 1) % wheelLength w) ∧
    ((∀ w : Fin 6, act[w].toNat < wheelLength w) → ∀ n : Nat, stepM209^[n] act = act ↔ 101405850 ∣ n)

/-- The control positions and the cadence after n steps of the control bank, and so after n symbols of a SIGABA run that
starts with `CAD` = 0, in the closed form the spec infers (R149); slots 0 and 4 never move. -/
def Obligations.SigabaControlCadence : Prop :=
  (∀ (kp : Vector (BitVec 5) 5) (n : Nat), (∀ j : Fin 5, kp[j].toNat < 26) →
    IsControlAfter n kp (controlAfter n kp 0#10).1 (controlAfter n kp 0#10).2) ∧
  ∀ (s : State) (m : List Byte), s.mode.isSigaba = true → (∀ j : Fin 5, s.sig.kp[j].toNat < 26) → s.sig.cad = 0#10 →
    IsMessage m →
    (sigabaStates s m).length = m.length ∧
    ∀ (n : Nat) (r : SigabaRegs), (sigabaStates s m)[n]? = some r → IsControlAfter (n + 1) s.sig.kp r.kp r.cad

/-- Exactly the cipher rotors that some final digit names by `d div 2` advance, each by exactly 1, `ADV` has
exactly their bits (R150); their number is 1 to 4, an inference the spec marks as its own. -/
def Obligations.SigabaCipherAdvance : Prop :=
  ∀ (cp : Vector (BitVec 5) 5) (xo : Vector Digit 4),
    let named := fun j : Fin 5 => ∃ m : Fin 4, xo[m].val / 2 = j.val
    let q := stepSigabaCipher cp xo
    (∀ j : Fin 5, (named j → q.1[j].toNat = (cp[j].toNat + 1) % 26) ∧ (¬ named j → q.1[j] = cp[j])) ∧
    (∀ j : Fin 5, q.2.getLsbD j = true ↔ named j) ∧
    1 ≤ (Finset.univ.filter named).card ∧ (Finset.univ.filter named).card ≤ 4

/-! ### The machines (41_enigma, 42_m209, 43_sigaba) -/

/-- An inference the spec marks as its own (R195): an Enigma `SYMBOL` never returns its own input. -/
def Obligations.EnigmaNeverReturnsItsInput : Prop :=
  ∀ (s t : State) (x : Byte), s.par.WellFormed → s.Sound → s.mode = .enigma → x.toNat ≤ 25 →
    exec (.symbol x) s = .next t → (responseData t.rsp).toNat ≠ x.toNat

/-- An inference the spec marks as its own (R196): for a fixed state before the symbol, the Enigma map is an involution; and both directions of `START ENIGMA` do
the same. -/
def Obligations.EnigmaIsSelfReciprocal : Prop :=
  (∀ (s : State) (x : Byte), s.par.WellFormed → s.Sound → s.mode = .enigma → x.toNat ≤ 25 →
    ∃ t u, exec (.symbol x) s = .next t ∧ exec (.symbol (cField t.rsp)) s = .next u ∧ cField u.rsp = x ∧
      u = { t with rsp := u.rsp }) ∧
  ∀ s : State, exec (.start 0#8 0#8) s = exec (.start 0#8 1#8) s

/-- An inference the spec marks as its own (R197): a message through one Enigma run, and its output through a second run started from the same keys, in either
direction: the result is the message. -/
def Obligations.EnigmaRoundTrip : Prop :=
  ∀ (s s' t t' : State) (dir dir' : Byte) (m : List Byte), s.par.WellFormed → s'.par = s.par → s'.keys = s.keys →
    Started 0#8 dir s t → Started 0#8 dir' s' t' → IsMessage m →
    (runSymbols t' (runSymbols t m).2).2 = m

/-- An inference the spec marks as its own (R198): the bank steps the same way whatever the message. -/
def Obligations.EnigmaStepsIgnoreTheMessage : Prop :=
  ∀ (s s' : State) (m m' : List Byte), s.mode = .enigma → s'.mode = .enigma → s'.par = s.par →
    s'.eng.ep = s.eng.ep → s'.eng.ewid = s.eng.ewid → IsMessage m → IsMessage m' → m'.length = m.length →
    enigmaPositions s' m' = enigmaPositions s m

/-- An inference the spec marks as its own (R235): the M-209 map of one state is an involution, and both directions of `START M209` do the same. -/
def Obligations.M209IsAnInvolution : Prop :=
  (∀ (s : State) (x : Byte), s.mode = .m209 → x.toNat ≤ 25 →
    ∃ t u, exec (.symbol x) s = .next t ∧ exec (.symbol (cField t.rsp)) s = .next u ∧ cField u.rsp = x ∧
      u = { t with rsp := u.rsp }) ∧
  ∀ s : State, exec (.start 1#8 0#8) s = exec (.start 1#8 1#8) s

/-- Inferences the spec marks as its own (R236): the keystream of a run is fixed by the working registers at `START`, not by the symbols; and a message through
one run, and its output through a second run from the same keys, give the message. -/
def Obligations.M209KeystreamAndRoundTrip : Prop :=
  (∀ (s s' : State) (m m' : List Byte), s.mode = .m209 → s'.mode = .m209 → s'.m209.act = s.m209.act →
    s'.m209.ps = s.m209.ps → s'.m209.la = s.m209.la → s'.m209.lb = s.m209.lb → IsMessage m → IsMessage m' →
    m'.length = m.length → keystreamValues s' m' = keystreamValues s m) ∧
  ∀ (s s' t t' : State) (dir dir' : Byte) (m : List Byte), s'.par = s.par → s'.keys = s.keys →
    Started 1#8 dir s t → Started 1#8 dir' s' t' → IsMessage m →
    (runSymbols t' (runSymbols t m).2).2 = m

/-- An inference the spec marks as its own (R287): the SIGABA chain does not depend on the message or the direction. -/
def Obligations.SigabaChainIgnoresTheMessage : Prop :=
  ∀ (s s' : State) (m m' : List Byte), s.mode.isSigaba = true → s'.mode.isSigaba = true → s'.par = s.par →
    s'.sig = s.sig → IsMessage m → IsMessage m' → m'.length = m.length → sigabaStates s' m' = sigabaStates s m

/-- An inference the spec marks as its own (R288): a message through a `SIGABA_ENC` run, and its output through a `SIGABA_DEC` run started from the same keys: the
result is the message. -/
def Obligations.SigabaRoundTrip : Prop :=
  ∀ (s s' t t' : State) (m : List Byte), s.par.WellFormed → s'.par = s.par → s'.keys = s.keys →
    Started 2#8 0#8 s t → Started 2#8 1#8 s' t' → IsMessage m →
    (runSymbols t' (runSymbols t m).2).2 = m

/-! ### The whole machine (10_state, 20_memory, 60_exceptions) -/

/-- The invariants of R79 hold at reset, and so does the form of the response. -/
def Obligations.ResetIsSound : Prop := State.reset.Sound ∧ State.reset.ResponseSound

/-- The invariants the spec infers (R79), with the ranges of R39–R41: every step keeps them, from every state that has
them. -/
def Obligations.StepKeepsSoundness : Prop := ∀ s t : State, s.Sound → step s = .next t → t.Sound

/-- The form of the response (R111, R340) is kept by every step: bits [23:16] are 0, the status is a code of R340, and an
error carries no data. -/
def Obligations.StepKeepsTheResponseForm : Prop :=
  ∀ s t : State, s.ResponseSound → step s = .next t → t.ResponseSound

/-- R42: no step changes a catalogue or any other parameter. -/
def Obligations.StepKeepsTheParameters : Prop := ∀ s t : State, step s = .next t → t.par = s.par

/-- An inference the spec marks as its own (R342): a command that raises any code changes no state: all that differs is the response. -/
def Obligations.ErrorsChangeNoState : Prop :=
  ∀ (w : Word32) (s t : State), commandStep w s = .next t → ¬ t.Accepted → t = { s with rsp := t.rsp }

/-- Of all commands, none but a key write and `SRESET` writes a key register, and during a run none but `SRESET` (R32, R89,
R373). The third writer of R373, a hardware reset, is no command and stands in BothResetsResetTheBlock. -/
def Obligations.KeysAreWrittenByKeyWritesOnly : Prop :=
  ∀ (i : Instr) (s t : State), exec i s = .next t → i ≠ .sreset → ¬ IsKeyWrite i ∨ s.mode ≠ .idle → t.keys = s.keys

/-- Of all commands, `MODE` is written only by `START`, which leaves `IDLE`, and by `END` and `SRESET`, which return to it
(R30). A hardware reset is no command and stands in BothResetsResetTheBlock. -/
def Obligations.ModeIsWrittenByStartEndReset : Prop :=
  ∀ (i : Instr) (s t : State), exec i s = .next t → t.mode ≠ s.mode →
    (s.mode = .idle ∧ ∃ machine dir, i = .start machine dir) ∨ (t.mode = .idle ∧ (i = .endRun ∨ i = .sreset))

/-- An inference the spec marks as its own (R90): after `START` no command of a run reads a key register: `SYMBOL`, `READ`, `NOP` and `END` do the same whatever
the key registers hold. -/
def Obligations.RunsIgnoreTheKeys : Prop :=
  ∀ (i : Instr) (s t : State) (keys : KeyRegs), i = .nop ∨ i = .endRun ∨ (∃ x, i = .symbol x) ∨ (∃ g b, i = .read g b) →
    exec i s = .next t → exec i (withOtherKeys s keys) = .next (withOtherKeys t keys)

/-- `START` reads the key registers and nothing else, and builds all the run needs: two idle blocks with the same
parameters and the same keys answer the same, get the same mode, and the same working registers of the machine started
(R302, R307). -/
def Obligations.StartReadsTheKeysOnly : Prop :=
  ∀ (s s' : State) (machine dir : Byte), s.mode = .idle → s'.mode = .idle → s'.par = s.par → s'.keys = s.keys →
    ∃ t t', exec (.start machine dir) s = .next t ∧ exec (.start machine dir) s' = .next t' ∧ t'.rsp = t.rsp ∧
      t'.mode = t.mode ∧ (t.mode = .enigma → t'.eng = t.eng) ∧ (t.mode = .m209 → t'.m209 = t.m209) ∧
      (t.mode.isSigaba = true → t'.sig = t.sig)

/-- R107: a command raises `E_BAD_SLOT` exactly when one of its selectors lies out of range. -/
def Obligations.BadSlotExactlyOutOfRange : Prop :=
  ∀ (i : Instr) (s t : State), exec i s = .next t → (responseStatus t.rsp = 0x02#8 ↔ ¬ i.WellFormed)

/-! ### Host operations (44_orchestrator §3) -/

/-- R311: `ENIGMA.DECODE` gives what `ENIGMA.ENCODE` gives for the same arguments. -/
def Obligations.EnigmaDecodeIsEncode : Prop := ∀ (s : State) (a : EnigmaArgs), enigmaDecode s a = enigmaEncode s a

/-- R314: `SIGABA.DECODE` of what `SIGABA.ENCODE` gives, with the same keys and whatever state the block was in, is the
message. -/
def Obligations.SigabaHostRoundTrip : Prop :=
  ∀ (s s' : State) (a : SigabaArgs) (c : List Char), s.par.WellFormed → s'.par = s.par →
    (sigabaEncode s a).2 = .ok c → (sigabaDecode s' { a with text := c }).2 = .ok a.text

/-- R315: a host operation gives a whole output text, as long as its input, or an error with no text; and where a host
check fails no command is issued, so the block's state is as before. -/
def Obligations.HostOperationsFailFast : Prop :=
  ∀ (s : State) (checks : List (Bool × HostError)) (keyWrites : Option (List Instr)) (start : Instr) (text : List Char),
    (∀ c, (hostOperation s checks keyWrites start text).2 = .ok c → c.length = text.length) ∧
    (∀ e, (hostOperation s checks keyWrites start text).2 = .error (.host e) →
      (hostOperation s checks keyWrites start text).1 = s) ∧
    (∀ check ∈ checks, check.1 = true → ∃ e, hostOperation s checks keyWrites start text = (s, .error (.host e)))
end

