-- ==== Sys2Proof/Laws/State.lean ====
section
/-! SUPPORT. What each named update of the state does to each field. -/

namespace Sys2Proof.Machine

@[simp] theorem State.withResponse_par (s : State) (st : Status) (data : Data16) : (s.withResponse st data).par = s.par := rfl

@[simp] theorem State.withResponse_mode (s : State) (st : Status) (data : Data16) : (s.withResponse st data).mode = s.mode := rfl

@[simp] theorem State.withResponse_keys (s : State) (st : Status) (data : Data16) : (s.withResponse st data).keys = s.keys := rfl

@[simp] theorem State.withResponse_eng (s : State) (st : Status) (data : Data16) : (s.withResponse st data).eng = s.eng := rfl

@[simp] theorem State.withResponse_m209 (s : State) (st : Status) (data : Data16) : (s.withResponse st data).m209 = s.m209 := rfl

@[simp] theorem State.withResponse_sig (s : State) (st : Status) (data : Data16) : (s.withResponse st data).sig = s.sig := rfl

@[simp] theorem State.withResponse_rsp (s : State) (st : Status) (data : Data16) : (s.withResponse st data).rsp = responseWord st data := rfl

@[simp] theorem State.withResponse_rdata (s : State) (st : Status) (data : Data16) : (s.withResponse st data).rdata = s.rdata := rfl

@[simp] theorem State.withResponse_inbox (s : State) (st : Status) (data : Data16) : (s.withResponse st data).inbox = s.inbox := rfl

@[simp] theorem State.withResponse_freeCount (s : State) (st : Status) (data : Data16) : (s.withResponse st data).freeCount = s.freeCount := rfl

@[simp] theorem State.withKeys_par (s : State) (keys : KeyRegs) : (s.withKeys keys).par = s.par := rfl

@[simp] theorem State.withKeys_mode (s : State) (keys : KeyRegs) : (s.withKeys keys).mode = s.mode := rfl

@[simp] theorem State.withKeys_keys (s : State) (keys : KeyRegs) : (s.withKeys keys).keys = keys := rfl

@[simp] theorem State.withKeys_eng (s : State) (keys : KeyRegs) : (s.withKeys keys).eng = s.eng := rfl

@[simp] theorem State.withKeys_m209 (s : State) (keys : KeyRegs) : (s.withKeys keys).m209 = s.m209 := rfl

@[simp] theorem State.withKeys_sig (s : State) (keys : KeyRegs) : (s.withKeys keys).sig = s.sig := rfl

@[simp] theorem State.withKeys_rsp (s : State) (keys : KeyRegs) : (s.withKeys keys).rsp = s.rsp := rfl

@[simp] theorem State.withKeys_rdata (s : State) (keys : KeyRegs) : (s.withKeys keys).rdata = s.rdata := rfl

@[simp] theorem State.withKeys_inbox (s : State) (keys : KeyRegs) : (s.withKeys keys).inbox = s.inbox := rfl

@[simp] theorem State.withKeys_freeCount (s : State) (keys : KeyRegs) : (s.withKeys keys).freeCount = s.freeCount := rfl

@[simp] theorem State.discardRun_par (s : State) : (s.discardRun).par = s.par := rfl

@[simp] theorem State.discardRun_mode (s : State) : (s.discardRun).mode = .idle := rfl

@[simp] theorem State.discardRun_keys (s : State) : (s.discardRun).keys = s.keys := rfl

@[simp] theorem State.discardRun_eng (s : State) : (s.discardRun).eng = freeEnigmaRegs s.freeCount := rfl

@[simp] theorem State.discardRun_m209 (s : State) : (s.discardRun).m209 = freeM209Regs s.freeCount := rfl

@[simp] theorem State.discardRun_sig (s : State) : (s.discardRun).sig = freeSigabaRegs s.freeCount := rfl

@[simp] theorem State.discardRun_rsp (s : State) : (s.discardRun).rsp = s.rsp := rfl

@[simp] theorem State.discardRun_rdata (s : State) : (s.discardRun).rdata = s.rdata := rfl

@[simp] theorem State.discardRun_inbox (s : State) : (s.discardRun).inbox = s.inbox := rfl

@[simp] theorem State.discardRun_freeCount (s : State) : (s.discardRun).freeCount = s.freeCount + 1 := rfl

@[simp] theorem State.resetBlock_par (s : State) : (s.resetBlock).par = s.par := rfl

@[simp] theorem State.resetBlock_mode (s : State) : (s.resetBlock).mode = .idle := rfl

@[simp] theorem State.resetBlock_keys (s : State) : (s.resetBlock).keys = KeyRegs.afterReset s.par := rfl

@[simp] theorem State.resetBlock_eng (s : State) : (s.resetBlock).eng = EnigmaRegs.afterReset := rfl

@[simp] theorem State.resetBlock_m209 (s : State) : (s.resetBlock).m209 = M209Regs.afterReset := rfl

@[simp] theorem State.resetBlock_sig (s : State) : (s.resetBlock).sig = SigabaRegs.afterReset := rfl

@[simp] theorem State.resetBlock_rsp (s : State) : (s.resetBlock).rsp = 0#32 := rfl

@[simp] theorem State.resetBlock_rdata (s : State) : (s.resetBlock).rdata = s.rdata := rfl

@[simp] theorem State.resetBlock_inbox (s : State) : (s.resetBlock).inbox = s.inbox := rfl

@[simp] theorem State.resetBlock_freeCount (s : State) : (s.resetBlock).freeCount = s.freeCount := rfl

@[simp] theorem State.resetWith_par (par : Parameters) : (State.resetWith par).par = par := rfl

@[simp] theorem State.resetWith_mode (par : Parameters) : (State.resetWith par).mode = .idle := rfl

@[simp] theorem State.resetWith_keys (par : Parameters) : (State.resetWith par).keys = KeyRegs.afterReset par := rfl

@[simp] theorem State.resetWith_eng (par : Parameters) : (State.resetWith par).eng = EnigmaRegs.afterReset := rfl

@[simp] theorem State.resetWith_m209 (par : Parameters) : (State.resetWith par).m209 = M209Regs.afterReset := rfl

@[simp] theorem State.resetWith_sig (par : Parameters) : (State.resetWith par).sig = SigabaRegs.afterReset := rfl

@[simp] theorem State.resetWith_rsp (par : Parameters) : (State.resetWith par).rsp = 0#32 := rfl

@[simp] theorem State.resetWith_rdata (par : Parameters) : (State.resetWith par).rdata = 0#32 := rfl

@[simp] theorem State.resetWith_inbox (par : Parameters) : (State.resetWith par).inbox = [] := rfl

@[simp] theorem State.resetWith_freeCount (par : Parameters) : (State.resetWith par).freeCount = 0 := rfl

end Sys2Proof.Machine
end

