-- ==== Sys2Proof/Laws/Words.lean ====
section
/-! SUPPORT. The fields of command and response words. -/

namespace Sys2Proof

theorem append_toNat {m n : Nat} (x : BitVec m) (y : BitVec n) :
    (x ++ y).toNat = x.toNat * 2 ^ n + y.toNat := by
  rw [BitVec.toNat_append, ← Nat.shiftLeft_add_eq_or_of_lt y.isLt, Nat.shiftLeft_eq]

theorem packWord_toNat (op a b c : Byte) :
    (packWord op a b c).toNat = op.toNat * 16777216 + a.toNat * 65536 + b.toNat * 256 + c.toNat := by
  change (op ++ a ++ b ++ c : BitVec (8 + 8 + 8 + 8)).toNat = _
  rw [append_toNat, append_toNat, append_toNat]
  omega

@[simp] theorem opField_packWord (op a b c : Byte) : opField (packWord op a b c) = op := by
  apply BitVec.eq_of_toNat_eq
  simp only [opField, BitVec.extractLsb'_toNat, packWord_toNat, Nat.shiftRight_eq_div_pow]
  omega

@[simp] theorem aField_packWord (op a b c : Byte) : aField (packWord op a b c) = a := by
  apply BitVec.eq_of_toNat_eq
  simp only [aField, BitVec.extractLsb'_toNat, packWord_toNat, Nat.shiftRight_eq_div_pow]
  omega

@[simp] theorem bField_packWord (op a b c : Byte) : bField (packWord op a b c) = b := by
  apply BitVec.eq_of_toNat_eq
  simp only [bField, BitVec.extractLsb'_toNat, packWord_toNat, Nat.shiftRight_eq_div_pow]
  omega

@[simp] theorem cField_packWord (op a b c : Byte) : cField (packWord op a b c) = c := by
  apply BitVec.eq_of_toNat_eq
  simp only [cField, BitVec.extractLsb'_toNat, packWord_toNat, Nat.shiftRight_eq_div_pow]
  omega

@[simp] theorem packWord_fields (w : Word32) : packWord (opField w) (aField w) (bField w) (cField w) = w := by
  apply BitVec.eq_of_toNat_eq
  simp only [opField, aField, bField, cField, BitVec.extractLsb'_toNat, packWord_toNat, Nat.shiftRight_eq_div_pow]
  omega

theorem packWord_injective {op a b c op' a' b' c' : Byte} (h : packWord op a b c = packWord op' a' b' c') :
    op = op' ∧ a = a' ∧ b = b' ∧ c = c' :=
  ⟨by simpa using congrArg opField h, by simpa using congrArg aField h, by simpa using congrArg bField h,
    by simpa using congrArg cField h⟩

namespace Machine

theorem responseWord_toNat (st : Status) (data : Data16) :
    (responseWord st data).toNat = st.code.toNat * 16777216 + data.toNat := by
  change (st.code ++ 0#8 ++ data : BitVec (8 + 8 + 16)).toNat = _
  rw [append_toNat, append_toNat]
  simp
  omega

@[simp] theorem responseStatus_responseWord (st : Status) (data : Data16) :
    responseStatus (responseWord st data) = st.code := by
  apply BitVec.eq_of_toNat_eq
  simp only [responseStatus, BitVec.extractLsb'_toNat, responseWord_toNat, Nat.shiftRight_eq_div_pow]
  omega

@[simp] theorem responseData_responseWord (st : Status) (data : Data16) :
    responseData (responseWord st data) = data := by
  apply BitVec.eq_of_toNat_eq
  simp only [responseData, BitVec.extractLsb'_toNat, responseWord_toNat, Nat.shiftRight_eq_div_pow]
  omega

@[simp] theorem responseWord_zeroByte (st : Status) (data : Data16) :
    (responseWord st data).extractLsb' 16 8 = 0#8 := by
  apply BitVec.eq_of_toNat_eq
  have below := data.isLt
  rw [BitVec.extractLsb'_toNat, responseWord_toNat, Nat.shiftRight_eq_div_pow]
  simp only [BitVec.toNat_ofNat]
  omega

/-- An accepted response with a register of at most 16 bits is that register, zero-extended (R111, R112). -/
theorem responseWord_ok_setWidth {n : Nat} (fits : n ≤ 16) (v : BitVec n) :
    responseWord .ok (v.setWidth 16) = v.setWidth 32 := by
  apply BitVec.eq_of_toNat_eq
  have below := v.isLt
  have le := Nat.pow_le_pow_right (show 0 < 2 by decide) fits
  have le' := Nat.pow_le_pow_right (show 0 < 2 by decide) (show n ≤ 32 by omega)
  rw [responseWord_toNat, BitVec.toNat_setWidth, BitVec.toNat_setWidth, Nat.mod_eq_of_lt (by omega),
    Nat.mod_eq_of_lt (by omega)]
  simp [Status.code]

theorem Status.code_le (st : Status) : st.code.toNat ≤ 0x0E := by cases st <;> decide

theorem Status.code_injective {st st' : Status} (h : st.code = st'.code) : st = st' := by
  revert h; cases st <;> cases st' <;> decide

end Machine

end Sys2Proof
end

