-- ==== Sys2Proof/Laws/Exec.lean ====
section
/-! SUPPORT. Everything a command, an access of the host and a step can do, said once. -/

namespace Sys2Proof.Machine

theorem firstFailure_eq_none {checks : List (Bool × Status)} :
    firstFailure checks = none ↔ ∀ check ∈ checks, check.1 = false := by
  induction checks with
  | nil => simp [firstFailure]
  | cons check rest ih =>
    obtain ⟨fails, code⟩ := check
    cases fails <;> simp [firstFailure, ih]

theorem firstFailure_mem {checks : List (Bool × Status)} {code : Status} (h : firstFailure checks = some code) :
    (true, code) ∈ checks := by
  induction checks with
  | nil => simp [firstFailure] at h
  | cons check rest ih =>
    obtain ⟨fails, c⟩ := check
    cases fails <;> simp_all [firstFailure]

/-- What a command can do to the state. -/
inductive Effect (s : State) : State → Prop where
  /-- It raised a code: nothing but the response changed (R342). -/
  | rejected (code : Status) (error : code ≠ .ok) : Effect s (s.withResponse code 0#16)
  /-- It answered and changed no register: `NOP`, `READ`, `END` with no run. -/
  | answered (data : Data16) : Effect s (s.withResponse .ok data)
  /-- A key write, with no run. -/
  | keyWritten (keys : KeyRegs) (idle : s.mode = .idle) : Effect s ((s.withKeys keys).withResponse .ok 0#16)
  /-- `SRESET`. -/
  | blockReset : Effect s (s.resetBlock.withResponse .ok 0#16)
  /-- `END` of a run. -/
  | runEnded (running : s.mode ≠ .idle) : Effect s (s.discardRun.withResponse .ok 0#16)
  /-- `START ENIGMA`, every check passed. -/
  | enigmaStarted (idle : s.mode = .idle) (passed : firstFailure (enigmaChecks s.par s.keys) = none) :
      Effect s (({ s with mode := .enigma, eng := enigmaSetup s.keys } : State).withResponse .ok 0#16)
  /-- `START M209`, every check passed. -/
  | m209Started (idle : s.mode = .idle) (passed : firstFailure (m209Checks s.par s.keys) = none) :
      Effect s (({ s with mode := .m209, m209 := m209Setup s.par s.keys } : State).withResponse .ok 0#16)
  /-- `START SIGABA`, every check passed. -/
  | sigabaStarted (idle : s.mode = .idle) (passed : firstFailure (sigabaChecks s.keys) = none) (mode : Mode)
      (sigaba : mode.isSigaba = true) :
      Effect s (({ s with mode := mode, sig := sigabaSetup s.keys } : State).withResponse .ok 0#16)
  /-- `SYMBOL` of an Enigma run. -/
  | enigmaSymbol (running : s.mode = .enigma) (x : Letter) :
      Effect s (({ s with eng := (enigmaSymbol s.par s.eng x).1 } : State).withResponse .ok
        (letterData (Machine.enigmaSymbol s.par s.eng x).2))
  /-- `SYMBOL` of an M-209 run. -/
  | m209Symbol (running : s.mode = .m209) (x : Letter) :
      Effect s (({ s with m209 := (m209Symbol s.m209 x).1 } : State).withResponse .ok
        (letterData (Machine.m209Symbol s.m209 x).2))
  /-- `SYMBOL` of a SIGABA run. -/
  | sigabaSymbol (running : s.mode.isSigaba = true) (decoding : Bool) (x : Letter) :
      Effect s (({ s with sig := (sigabaSymbol s.par s.sig decoding x).1 } : State).withResponse .ok
        (letterData (Machine.sigabaSymbol s.par s.sig decoding x).2))

theorem raise_effect {s : State} {code : Status} (error : code ≠ .ok) : ∃ t, raise s code = .next t ∧ Effect s t :=
  ⟨_, rfl, .rejected code error⟩

/-- A selector out of range comes first (R107, R343). -/
theorem writeKey_badSlot {s : State} {keys : KeyRegs} : writeKey s false keys = .next { s with rsp := 0x02000000#32 } :=
  rfl

/-- Then a run that is on (R89, R343). -/
theorem writeKey_busy {s : State} {keys : KeyRegs} (running : s.mode ≠ .idle) :
    writeKey s true keys = .next { s with rsp := 0x03000000#32 } := by
  simp only [writeKey, if_pos running]
  rfl

/-- Otherwise the write, and nothing else. -/
theorem writeKey_done {s : State} {keys : KeyRegs} (idle : s.mode = .idle) :
    writeKey s true keys = .next { s with keys := keys, rsp := 0#32 } := by
  simp only [writeKey, if_neg (not_not_intro idle)]
  rfl

theorem writeKey_effect (s : State) (inRange : Bool) (keys : KeyRegs) :
    ∃ t, writeKey s inRange keys = .next t ∧ Effect s t := by
  unfold writeKey
  split
  · exact raise_effect (by decide)
  · split
    · exact raise_effect (by decide)
    · exact ⟨_, rfl, .keyWritten keys (by simpa using ‹¬ s.mode ≠ .idle›)⟩

/-- The first failing check of `START` is the answer, and nothing else changes. -/
theorem startRun_refused {s started : State} {checks : List (Bool × Status)} {code : Status}
    (fails : firstFailure checks = some code) :
    startRun s checks started = .next { s with rsp := responseWord code 0#16 } := by
  simp only [startRun, fails]
  rfl

/-- With every check passed the run begins. -/
theorem startRun_passed {s started : State} {checks : List (Bool × Status)} (passed : firstFailure checks = none) :
    startRun s checks started = .next { started with rsp := 0#32 } := by
  simp only [startRun, passed]
  rfl

theorem startRun_effect {s : State} {checks : List (Bool × Status)} {started : State}
    (errors : ∀ check ∈ checks, check.2 ≠ .ok)
    (passed : firstFailure checks = none → Effect s (started.withResponse .ok 0#16)) :
    ∃ t, startRun s checks started = .next t ∧ Effect s t := by
  unfold startRun
  split
  · exact raise_effect (errors _ (firstFailure_mem ‹_›))
  · exact ⟨_, rfl, passed ‹_›⟩

theorem execStart_effect (machine dir : Byte) (s : State) :
    ∃ t, execStart machine dir s = .next t ∧ Effect s t := by
  unfold execStart
  split
  · exact raise_effect (by decide)
  · split
    · exact raise_effect (by decide)
    · have idle : s.mode = .idle := by simpa using ‹¬ s.mode ≠ .idle›
      split
      · exact startRun_effect (by simp [enigmaChecks]) (.enigmaStarted idle)
      · exact startRun_effect (by simp [m209Checks]) (.m209Started idle)
      · exact startRun_effect (by simp [sigabaChecks])
          fun passed => .sigabaStarted idle passed _ (by split <;> rfl)

theorem execSymbol_effect (symbol : Byte) (s : State) : ∃ t, execSymbol symbol s = .next t ∧ Effect s t := by
  unfold execSymbol
  split
  · exact raise_effect (by decide)
  · split
    · exact raise_effect (by decide)
    · split
      · exact raise_effect (by decide)
      · exact ⟨_, rfl, .enigmaSymbol ‹_› _⟩
      · exact ⟨_, rfl, .m209Symbol ‹_› _⟩
      · exact ⟨_, rfl, .sigabaSymbol (by rw [‹s.mode = _›]; rfl) false _⟩
      · exact ⟨_, rfl, .sigabaSymbol (by rw [‹s.mode = _›]; rfl) true _⟩

/-- A letter is answered as its code (R112). -/
theorem withResponse_letterData (s : State) (l : Letter) :
    s.withResponse .ok (letterData l) = { s with rsp := BitVec.ofNat 32 l.val } := by
  have word : ∀ l : Letter, responseWord .ok (letterData l) = BitVec.ofNat 32 l.val := by decide
  simp only [State.withResponse, word]

/-- `SYMBOL` of an Enigma run, in the model's own terms. -/
theorem execSymbol_enigma {s : State} {x : Byte} (running : s.mode = .enigma) (letter : x.toNat ≤ 25) :
    execSymbol x s = .next { s with
      eng := (enigmaSymbol s.par s.eng (letterOf x)).1
      rsp := BitVec.ofNat 32 (enigmaSymbol s.par s.eng (letterOf x)).2.val } := by
  simp only [execSymbol, running, if_neg (not_lt.mpr letter), reduceCtorEq, if_false, respond, withResponse_letterData]

/-- `SYMBOL` of an M-209 run, in the model's own terms. -/
theorem execSymbol_m209 {s : State} {x : Byte} (running : s.mode = .m209) (letter : x.toNat ≤ 25) :
    execSymbol x s = .next { s with
      m209 := (m209Symbol s.m209 (letterOf x)).1
      rsp := BitVec.ofNat 32 (m209Symbol s.m209 (letterOf x)).2.val } := by
  simp only [execSymbol, running, if_neg (not_lt.mpr letter), reduceCtorEq, if_false, respond, withResponse_letterData]

/-- `SYMBOL` of a SIGABA run, in the model's own terms. -/
theorem execSymbol_sigaba {s : State} {x : Byte} (running : s.mode.isSigaba = true) (letter : x.toNat ≤ 25) :
    execSymbol x s = .next { s with
      sig := sigabaAdvance s.par s.sig
      rsp := BitVec.ofNat 32 (cipherBank s.par s.sig (s.mode == .sigabaDec) (letterOf x)).val } := by
  cases mode : s.mode <;> simp only [mode, Mode.isSigaba, Bool.false_eq_true] at running <;>
    simp only [execSymbol, mode, if_neg (not_lt.mpr letter), reduceCtorEq, if_false, respond, withResponse_letterData,
      sigabaSymbol] <;> rfl

theorem execM209Pin_effect (wheel pin bit : Byte) (s : State) :
    ∃ t, execM209Pin wheel pin bit s = .next t ∧ Effect s t := by
  unfold execM209Pin
  split
  · exact raise_effect (by decide)
  · split
    · exact raise_effect (by decide)
    · split
      · exact raise_effect (by decide)
      · exact ⟨_, rfl, .keyWritten _ (by simpa using ‹¬ s.mode ≠ .idle›)⟩

theorem execRead_effect (group slot : Byte) (s : State) : ∃ t, execRead group slot s = .next t ∧ Effect s t := by
  unfold execRead
  split
  · exact raise_effect (by decide)
  · split
    · exact ⟨_, rfl, .answered _⟩
    · exact raise_effect (by decide)

theorem execEndRun_effect (s : State) : ∃ t, execEndRun s = .next t ∧ Effect s t := by
  unfold execEndRun
  split
  · exact ⟨_, rfl, .answered _⟩
  · exact ⟨_, rfl, .runEnded ‹_›⟩

/-- Every command answers with a next state, and this is all it can have done. -/
theorem exec_effect (i : Instr) (s : State) : ∃ t, exec i s = .next t ∧ Effect s t := by
  cases i with
  | nop => exact ⟨_, rfl, .answered _⟩
  | sreset => exact ⟨_, rfl, .blockReset⟩
  | start machine dir => exact execStart_effect machine dir s
  | endRun => exact execEndRun_effect s
  | symbol symbol => exact execSymbol_effect symbol s
  | read group slot => exact execRead_effect group slot s
  | m209Pin wheel pin bit => exact execM209Pin_effect wheel pin bit s
  | engRefl reflector => exact writeKey_effect s true { s.keys with eref := reflector }
  | engRotor | engPos | engRing | engPlug | m209Key | m209Lug | sigCrot | sigKrot | sigIrot | sigInd
  | sigKpos | sigIpos => exact writeKey_effect _ _ _

theorem effect_of_exec {i : Instr} {s t : State} (h : exec i s = .next t) : Effect s t := by
  obtain ⟨t', h', effect⟩ := exec_effect i s
  rw [h] at h'
  cases h'
  exact effect

/-- Every word on the port is answered (R110, R389). -/
theorem commandStep_effect (w : Word32) (s : State) : ∃ t, commandStep w s = .next t ∧ Effect s t := by
  unfold commandStep
  split
  · exact exec_effect _ s
  · exact raise_effect (by decide)

theorem effect_of_commandStep {w : Word32} {s t : State} (h : commandStep w s = .next t) : Effect s t := by
  obtain ⟨t', h', effect⟩ := commandStep_effect w s
  rw [h] at h'
  cases h'
  exact effect

theorem portStep_of_next {w : Word32} {s t : State} (h : commandStep w s = .next t) : portStep s w = (t, t.rsp) := by
  simp [portStep, h]

/-- All an access of the host can do: a command's effect, a read of `RSP`, a reset (R82, R83, R370). -/
theorem serve_effect {event : PortEvent} {s t : State} (h : serve event s = .next t) :
    Effect s t ∨ t = { s with rdata := s.rsp } ∨ t = s.resetBlock := by
  cases event with
  | command w => exact .inl (effect_of_commandStep h)
  | write addr size data =>
    simp only [serve] at h
    split at h
    · exact .inl (effect_of_commandStep h)
    · cases h
  | read addr size =>
    simp only [serve] at h
    split at h
    · cases h; exact .inr (.inl rfl)
    · cases h
  | hardReset => cases h; exact .inr (.inr rfl)

/-- All a step can do: wait, or serve the oldest access (R371, R380). -/
theorem step_cases {s t : State} (h : step s = .next t) :
    (s.inbox = [] ∧ t = s) ∨
    ∃ event rest, s.inbox = event :: rest ∧ serve event { s with inbox := rest } = .next t := by
  unfold step takeStep nextEvent at h
  cases waiting : s.inbox with
  | nil => rw [waiting] at h; cases h; exact .inl ⟨rfl, rfl⟩
  | cons event rest => rw [waiting] at h; exact .inr ⟨event, rest, rfl, h⟩

end Sys2Proof.Machine
end

