-- ==== Sys2Proof/Laws/Operands.lean ====
section
/-! SUPPORT. Operand arithmetic: floor-modulo, counters, single pins, wirings. -/

namespace Sys2Proof.Machine

theorem floorMod_val (n : Nat) [NeZero n] (a : Int) : ((floorMod n a).val : Int) = a % n := by
  have positive : (0 : Int) < n := Int.natCast_pos.mpr (Nat.pos_of_ne_zero (NeZero.ne n))
  have nonneg := Int.emod_nonneg a positive.ne'
  simp only [floorMod]
  omega

@[simp] theorem floorMod_natCast_val (n : Nat) [NeZero n] (a : Nat) : (floorMod n (a : Int)).val = a % n := by
  have h := floorMod_val n (a : Int)
  omega

@[simp] theorem floorMod_val_self {n : Nat} [NeZero n] (i : Fin n) : floorMod n (i.val : Int) = i := by
  apply Fin.ext
  simp [Nat.mod_eq_of_lt i.isLt]

/-- An entry inside a catalogue is the one the reduced index names. -/
theorem getElem?_floorMod {α : Type} {n : Nat} [NeZero n] (v : Vector α n) {k : Nat} (inside : k < n) :
    v[k]? = some v[floorMod n k] := by
  rw [Vector.getElem?_eq_getElem inside]
  congr 1
  exact getElem_congr_idx (by simp [Nat.mod_eq_of_lt inside])

/-- Two integers that differ by a multiple of n have the same floor-modulo. -/
theorem floorMod_congr {n : Nat} [NeZero n] {a b : Int} (h : a % n = b % n) : floorMod n a = floorMod n b := by
  apply Fin.ext
  have ha := floorMod_val n a
  have hb := floorMod_val n b
  omega

/-- Adding p undoes subtracting p (R12). -/
theorem floorMod_sub_add {n : Nat} [NeZero n] (e : Fin n) (p : Int) :
    floorMod n ((floorMod n (e.val - p)).val + p) = e := by
  apply Fin.ext
  have outer := floorMod_val n ((floorMod n (e.val - p)).val + p)
  have inner : (((floorMod n (e.val - p)).val : Int) + p) % n = e.val := by
    rw [floorMod_val n (e.val - p), Int.emod_add_emod, sub_add_cancel, Int.emod_eq_of_lt (by omega) (by omega)]
  omega

/-- Subtracting p undoes adding p (R12). -/
theorem floorMod_add_sub {n : Nat} [NeZero n] (e : Fin n) (p : Int) :
    floorMod n ((floorMod n (e.val + p)).val - p) = e := by
  simpa [sub_eq_add_neg] using floorMod_sub_add e (-p)

theorem advance_toNat {n w : Nat} (v : BitVec w) (fits : n ≤ 2 ^ w) (positive : 0 < n) :
    (advance n v).toNat = (v.toNat + 1) % n := by
  have below := Nat.mod_lt (v.toNat + 1) positive
  simp only [advance, BitVec.toNat_ofNat]
  exact Nat.mod_eq_of_lt (by omega)

theorem advance_lt {n w : Nat} (v : BitVec w) (positive : 0 < n) : (advance n v).toNat < n := by
  have below := Nat.mod_lt (v.toNat + 1) positive
  have le := Nat.mod_le ((v.toNat + 1) % n) (2 ^ w)
  simp only [advance, BitVec.toNat_ofNat]
  omega

@[simp] theorem letterOf_val {w : Nat} (v : BitVec w) : (letterOf v).val = v.toNat % 26 := by
  simp [letterOf]

@[simp] theorem letterBits_toNat (l : Letter) : (letterBits l).toNat = l.val := by
  simp only [letterBits, BitVec.toNat_ofNat]
  exact Nat.mod_eq_of_lt (by omega)

@[simp] theorem letterOf_letterBits (l : Letter) : letterOf (letterBits l) = l := by
  apply Fin.ext
  simp [Nat.mod_eq_of_lt l.isLt]

/-- The letter of a symbol operand. -/
@[simp] theorem letterOf_ofNat (l : Letter) : letterOf (BitVec.ofNat 8 l.val) = l := by
  apply Fin.ext
  simp only [letterOf_val, BitVec.toNat_ofNat]
  omega

theorem getD_setIfInBounds {α : Type} {n : Nat} (v : Vector α n) (i j : Nat) (x d : α) (inRange : i < n) :
    (v.setIfInBounds i x).getD j d = if j = i then x else v.getD j d := by
  by_cases hj : j < n
  · by_cases h : j = i
    · simp [Vector.getD, h, inRange]
    · simp [Vector.getD, hj, h, Ne.symm h]
  · have h : j ≠ i := by omega
    simp [Vector.getD, hj, h]

/-- A pin reads as it was last written, and no other pin changes (R221). -/
theorem pinAt_setPin (bank : PinBank) (w i w' i' : Nat) (v : Bool) (inRange : i < wheelLength w) :
    pinAt (setPin bank w i v) w' i' = if w' = w ∧ i' = i then v else pinAt bank w' i' := by
  rcases w with _ | _ | _ | _ | _ | _ | w <;> simp only [wheelLength] at inRange <;>
    rcases w' with _ | _ | _ | _ | _ | _ | w' <;>
    (simp [pinAt, setPin, getD_setIfInBounds, inRange]; try omega)

/-- In a permutation, the inverse lookup finds the symbol that is wired to e (R14). -/
theorem getElem_wiringIndex {n : Nat} [NeZero n] {w : Wiring n} (permutation : w.IsPermutation) (e : Fin n) :
    w[wiringIndex w e] = e := by
  have found : e ∈ w.toList := by
    have full : w.toList.toFinset = Finset.univ := by
      apply Finset.eq_univ_of_card
      rw [List.toFinset_card_of_nodup permutation]
      simp
    have := Finset.mem_univ e
    rw [← full] at this
    simpa using this
  have below : w.toList.idxOf e < n := by simpa using List.idxOf_lt_length_of_mem found
  have value : (wiringIndex w e).val = w.toList.idxOf e := by
    simp [wiringIndex, Nat.mod_eq_of_lt below]
  have here : w.toList[w.toList.idxOf e]'(by simpa using below) = e := List.getElem_idxOf _
  rw [Vector.getElem_toList] at here
  simpa only [Fin.getElem_fin, value] using here

/-- In a permutation, the inverse lookup undoes the lookup (R14). -/
theorem wiringIndex_getElem {n : Nat} [NeZero n] {w : Wiring n} (permutation : w.IsPermutation) (e : Fin n) :
    wiringIndex w w[e] = e := by
  have same := getElem_wiringIndex permutation w[e]
  apply Fin.ext
  have inj := (List.Nodup.getElem_inj_iff permutation (i := (wiringIndex w w[e]).val) (j := e.val)
    (hi := by simp) (hj := by simp)).mp (by simpa [Fin.getElem_fin] using same)
  exact inj

end Sys2Proof.Machine
end

