-- ==== Sys2Proof/Laws/Machines.lean ====
section
/-! SUPPORT. The pieces of the machines: single plug letters, the checks of `START`, the lookups of a symbol. -/

namespace Sys2Proof.Machine

/-- A plug letter reads as it was last written, and no other changes (R184). -/
theorem getElem_setPlugKey (eplug : Vector (Vector Byte 10) 2) (k i : Nat) (letter : Byte) (string : Fin 2)
    (index : Fin 10) :
    (setPlugKey eplug k i letter)[string][index] =
      if string.val = k ∧ index.val = i then letter else eplug[string][index] := by
  have outer : (setPlugKey eplug k i letter)[string] =
      if k = string.val then eplug[string].setIfInBounds i letter else eplug[string] := by
    unfold setPlugKey
    simp only [Fin.getElem_fin, Vector.getElem_setIfInBounds]
    split
    · subst k
      simp [Vector.getD, Vector.getElem?_eq_getElem string.isLt]
    · rfl
  rw [outer]
  by_cases here : k = string.val
  · simp [here, Vector.getElem_setIfInBounds, eq_comm]
  · simp [here, Ne.symm here]

@[simp] theorem anyKey_iff {n : Nat} {bank : Vector Byte n} {bad : Byte → Bool} :
    anyKey bank bad = true ↔ ∃ k : Fin n, bad bank[k] = true := by
  simp only [anyKey, List.any_eq_true, Vector.mem_toList_iff, Vector.mem_iff_getElem]
  constructor
  · rintro ⟨_, ⟨k, below, rfl⟩, h⟩
    exact ⟨⟨k, below⟩, h⟩
  · rintro ⟨k, h⟩
    exact ⟨_, ⟨k.val, k.isLt, rfl⟩, h⟩

@[simp] theorem isUnset_iff {k : Byte} : isUnset k = true ↔ k = 0xFF#8 := by
  simp [isUnset, unsetKey]

@[simp] theorem outOfRange_iff {size : Nat} {k : Byte} : outOfRange size k = true ↔ size ≤ k.toNat := by
  simp [outOfRange]

theorem mem_plugLetters {keys : KeyRegs} {x : Byte} :
    x ∈ plugLetters keys ↔ ∃ (k : Fin 2) (i : Fin 10), keys.eplug[k][i] = x := by
  simp only [plugLetters, List.mem_append, Vector.mem_toList_iff, Vector.mem_iff_getElem]
  constructor
  · rintro (⟨i, below, h⟩ | ⟨i, below, h⟩)
    · exact ⟨0, ⟨i, below⟩, h⟩
    · exact ⟨1, ⟨i, below⟩, h⟩
  · rintro ⟨k, i, h⟩
    obtain rfl | rfl : k = 0 ∨ k = 1 := by omega
    · exact .inl ⟨i.val, i.isLt, h⟩
    · exact .inr ⟨i.val, i.isLt, h⟩

@[simp] theorem any_plugLetters_iff {keys : KeyRegs} {bad : Byte → Bool} :
    (plugLetters keys).any bad = true ↔ ∃ (k : Fin 2) (i : Fin 10), bad keys.eplug[k][i] = true := by
  simp only [List.any_eq_true, mem_plugLetters]
  constructor
  · rintro ⟨_, ⟨k, i, rfl⟩, h⟩
    exact ⟨k, i, h⟩
  · rintro ⟨k, i, h⟩
    exact ⟨_, ⟨k, i, rfl⟩, h⟩

theorem vector_toList_nodup_iff {α : Type} {n : Nat} {v : Vector α n} :
    v.toList.Nodup ↔ ∀ i i' : Fin n, i ≠ i' → v[i] ≠ v[i'] := by
  rw [List.nodup_iff_injective_get]
  constructor
  · intro inj i i' differ same
    exact differ (Fin.ext (by
      simpa using @inj ⟨i.val, by simp⟩ ⟨i'.val, by simp⟩ (by simpa using same)))
  · intro h a b same
    by_contra differ
    have ha : a.val < n := by simpa using a.isLt
    have hb : b.val < n := by simpa using b.isLt
    refine h ⟨a.val, ha⟩ ⟨b.val, hb⟩ (fun e => differ (Fin.ext (by simpa using congrArg Fin.val e))) ?_
    simpa using same

/-- No letter stands twice in the plug keys (R190). -/
theorem plugLetters_nodup_iff {keys : KeyRegs} :
    (plugLetters keys).Nodup ↔
      ∀ (k k' : Fin 2) (i i' : Fin 10), k ≠ k' ∨ i ≠ i' → keys.eplug[k][i] ≠ keys.eplug[k'][i'] := by
  simp only [plugLetters, List.nodup_append, vector_toList_nodup_iff, Vector.mem_toList_iff, Vector.mem_iff_getElem]
  constructor
  · rintro ⟨first, second, across⟩ k k' i i' differ
    obtain rfl | rfl : k = 0 ∨ k = 1 := by omega
    · obtain rfl | rfl : k' = 0 ∨ k' = 1 := by omega
      · exact first i i' (by simpa using differ)
      · exact across _ ⟨i.val, i.isLt, rfl⟩ _ ⟨i'.val, i'.isLt, rfl⟩
    · obtain rfl | rfl : k' = 0 ∨ k' = 1 := by omega
      · exact (across _ ⟨i'.val, i'.isLt, rfl⟩ _ ⟨i.val, i.isLt, rfl⟩).symm
      · exact second i i' (by simpa using differ)
  · intro h
    refine ⟨fun i i' ne => h 0 0 i i' (.inr ne), fun i i' ne => h 1 1 i i' (.inr ne), ?_⟩
    rintro _ ⟨i, hi, rfl⟩ _ ⟨i', hi', rfl⟩
    exact h 0 1 ⟨i, hi⟩ ⟨i', hi'⟩ (.inl (by decide))

theorem getElem_swapPlug (plug : Vector (BitVec 5) 26) (pair : Byte × Byte) (l : Letter) :
    (swapPlug plug pair)[l] =
      if pair.2.toNat = l.val then pair.1.setWidth 5 else if pair.1.toNat = l.val then pair.2.setWidth 5 else plug[l] := by
  simp [swapPlug, Vector.getElem_setIfInBounds]

/-- A letter that no pair names keeps its image. -/
theorem getElem_foldl_swapPlug (pairs : List (Byte × Byte)) (plug : Vector (BitVec 5) 26) (l : Letter)
    (apart : ∀ pair ∈ pairs, pair.1.toNat ≠ l.val ∧ pair.2.toNat ≠ l.val) :
    (pairs.foldl swapPlug plug)[l] = plug[l] := by
  induction pairs generalizing plug with
  | nil => rfl
  | cons pair pairs ih =>
    have here := apart pair List.mem_cons_self
    rw [List.foldl_cons, ih _ fun q hq => apart q (List.mem_cons_of_mem _ hq), getElem_swapPlug, if_neg here.2,
      if_neg here.1]

/-- Every wheel has 1 to 26 positions (R8). -/
theorem wheelLength_bounds (w : Fin 6) : 0 < wheelLength w.val ∧ wheelLength w.val ≤ 26 := by
  fin_cases w <;> decide

theorem keystream_le (r : M209Regs) : keystream r ≤ 27 := by
  unfold keystream
  exact List.countP_le_length.trans (by simp)

theorem inAdvanceSet_iff {xo : Vector Digit 4} {j : Nat} :
    inAdvanceSet xo j = true ↔ ∃ m : Fin 4, xo[m].val / 2 = j := by
  simp only [inAdvanceSet, List.any_eq_true, Vector.mem_toList_iff, Vector.mem_iff_getElem, beq_iff_eq]
  constructor
  · rintro ⟨_, ⟨m, below, rfl⟩, h⟩
    exact ⟨⟨m, below⟩, h⟩
  · rintro ⟨m, h⟩
    exact ⟨_, ⟨m.val, m.isLt, rfl⟩, h⟩

/-- The maze's four passes, written out (R283). -/
theorem mazeOutputs_eq (par : Parameters) (r : SigabaRegs) :
    mazeOutputs par r = (let pass := [0, 1, 2, 3, 4].foldl (controlRotor par r)
      #v[pass 5, pass 6, pass 7, pass 8]) := by
  apply Vector.ext
  intro m below
  rw [mazeOutputs, Vector.getElem_ofFn]
  match m, below with
  | 0, _ | 1, _ | 2, _ | 3, _ => rfl

/-- The index bank's four passes, written out (R285). -/
theorem indexOutputs_eq (par : Parameters) (r : SigabaRegs) (a b c d : Digit) :
    indexOutputs par r #v[a, b, c, d] = (let pass := [0, 1, 2, 3, 4].foldl (indexRotor par r)
      #v[pass a, pass b, pass c, pass d]) := by
  apply Vector.ext
  intro m below
  rw [indexOutputs, Vector.getElem_ofFn]
  match m, below with
  | 0, _ | 1, _ | 2, _ | 3, _ => rfl

end Sys2Proof.Machine
end

