-- ==== Sys2Proof/Laws/PerInstr.lean ====
section
/-! SUPPORT. One lemma per command for each statement about all commands as syntax. -/

namespace Sys2Proof.Laws

/-- The opcode of each command (R105). -/
def opcodeOf : Instr → Byte
  | .nop => 0x00#8
  | .sreset => 0x01#8
  | .start _ _ => 0x02#8
  | .endRun => 0x03#8
  | .symbol _ => 0x04#8
  | .read _ _ => 0x05#8
  | .engRotor _ _ => 0x10#8
  | .engRefl _ => 0x11#8
  | .engPos _ _ => 0x12#8
  | .engRing _ _ => 0x13#8
  | .engPlug _ _ _ => 0x14#8
  | .m209Key _ _ => 0x20#8
  | .m209Pin _ _ _ => 0x21#8
  | .m209Lug _ _ _ => 0x22#8
  | .sigCrot _ _ => 0x30#8
  | .sigKrot _ _ => 0x31#8
  | .sigIrot _ _ => 0x32#8
  | .sigInd _ _ => 0x33#8
  | .sigKpos _ _ => 0x34#8
  | .sigIpos _ _ => 0x35#8

/-- The opcode field of a command's word is its opcode (R100, R105). -/
def EncodeOpcode.Statement (i : Instr) : Prop := opField (encode i) = opcodeOf i

theorem EncodeOpcode.nop : EncodeOpcode.Statement (.nop) := opField_packWord _ _ _ _

theorem EncodeOpcode.sreset : EncodeOpcode.Statement (.sreset) := opField_packWord _ _ _ _

theorem EncodeOpcode.start (machine dir : Byte) : EncodeOpcode.Statement (.start machine dir) := opField_packWord _ _ _ _

theorem EncodeOpcode.endRun : EncodeOpcode.Statement (.endRun) := opField_packWord _ _ _ _

theorem EncodeOpcode.symbol (symbol : Byte) : EncodeOpcode.Statement (.symbol symbol) := opField_packWord _ _ _ _

theorem EncodeOpcode.read (group slot : Byte) : EncodeOpcode.Statement (.read group slot) := opField_packWord _ _ _ _

theorem EncodeOpcode.engRotor (slot rotor : Byte) : EncodeOpcode.Statement (.engRotor slot rotor) := opField_packWord _ _ _ _

theorem EncodeOpcode.engRefl (reflector : Byte) : EncodeOpcode.Statement (.engRefl reflector) := opField_packWord _ _ _ _

theorem EncodeOpcode.engPos (slot letter : Byte) : EncodeOpcode.Statement (.engPos slot letter) := opField_packWord _ _ _ _

theorem EncodeOpcode.engRing (slot letter : Byte) : EncodeOpcode.Statement (.engRing slot letter) := opField_packWord _ _ _ _

theorem EncodeOpcode.engPlug (string index letter : Byte) : EncodeOpcode.Statement (.engPlug string index letter) := opField_packWord _ _ _ _

theorem EncodeOpcode.m209Key (wheel letter : Byte) : EncodeOpcode.Statement (.m209Key wheel letter) := opField_packWord _ _ _ _

theorem EncodeOpcode.m209Pin (wheel pin bit : Byte) : EncodeOpcode.Statement (.m209Pin wheel pin bit) := opField_packWord _ _ _ _

theorem EncodeOpcode.m209Lug (regA bar regB : Byte) : EncodeOpcode.Statement (.m209Lug regA bar regB) := opField_packWord _ _ _ _

theorem EncodeOpcode.sigCrot (slot rotor : Byte) : EncodeOpcode.Statement (.sigCrot slot rotor) := opField_packWord _ _ _ _

theorem EncodeOpcode.sigKrot (slot rotor : Byte) : EncodeOpcode.Statement (.sigKrot slot rotor) := opField_packWord _ _ _ _

theorem EncodeOpcode.sigIrot (slot rotor : Byte) : EncodeOpcode.Statement (.sigIrot slot rotor) := opField_packWord _ _ _ _

theorem EncodeOpcode.sigInd (slot letter : Byte) : EncodeOpcode.Statement (.sigInd slot letter) := opField_packWord _ _ _ _

theorem EncodeOpcode.sigKpos (slot letter : Byte) : EncodeOpcode.Statement (.sigKpos slot letter) := opField_packWord _ _ _ _

theorem EncodeOpcode.sigIpos (slot digit : Byte) : EncodeOpcode.Statement (.sigIpos slot digit) := opField_packWord _ _ _ _

end Sys2Proof.Laws
end

