-- ==== Sys2Proof/Laws/Port.lean ====
section
/-! SUPPORT. The bus binding: when an access is admitted, and what a step does with the oldest access. -/

namespace Sys2Proof.Machine

@[simp] theorem accessAdmitted_iff {word addr size : Nat} :
    accessAdmitted word addr size = true ↔ size = 4 ∧ addr % 4 = 0 ∧ addr = word := by
  simp [accessAdmitted, and_assoc]

theorem commandStep_of_decode {w : Word32} {i : Instr} (h : decode w = .ok i) (s : State) :
    commandStep w s = exec i s := by
  simp [commandStep, h]

theorem commandStep_of_error {w : Word32} {e : DecodeError} (h : decode w = .error e) (s : State) :
    commandStep w s = raise s .illegal := by
  simp [commandStep, h]

theorem step_of_inbox {s : State} {event : PortEvent} {rest : List PortEvent} (h : s.inbox = event :: rest) :
    step s = serve event { s with inbox := rest } := by
  simp [step, takeStep, nextEvent, h]

theorem step_of_empty {s : State} (h : s.inbox = []) : step s = .next s := by
  simp [step, takeStep, nextEvent, h]

end Sys2Proof.Machine
end

