-- ==== Sys2Proof/Tests/Catalogue.lean ====
section
/-! SUPPORT. The test catalogues TC-E, TC-M and TC-S of spec/95_test_vectors.md §2, which stand in for the OPEN parameters in tests and witnesses. They are not the hardware's tables (spec/93_implementation_defined.md GK1–GK4). -/

namespace Sys2Proof.Tests

/-- TC-E rotor I. -/
def rotorI : Wiring 26 := #v[4, 10, 12, 5, 11, 6, 3, 16, 21, 25, 13, 19, 14, 22, 24, 7, 23, 20, 18, 15, 0, 8, 1, 17, 2, 9]

/-- TC-E rotor II. -/
def rotorII : Wiring 26 := #v[0, 9, 3, 10, 18, 8, 17, 20, 23, 1, 11, 7, 22, 19, 12, 2, 16, 6, 25, 13, 15, 24, 5, 21, 14, 4]

/-- TC-E rotor III. -/
def rotorIII : Wiring 26 := #v[1, 3, 5, 7, 9, 11, 2, 15, 17, 19, 23, 21, 25, 13, 24, 4, 8, 22, 6, 0, 10, 12, 20, 18, 16, 14]

/-- TC-E rotor IV. -/
def rotorIV : Wiring 26 := #v[4, 18, 14, 21, 15, 25, 9, 0, 24, 16, 20, 8, 17, 7, 23, 11, 13, 5, 19, 6, 10, 3, 2, 12, 22, 1]

/-- TC-E rotor V. -/
def rotorV : Wiring 26 := #v[21, 25, 1, 17, 6, 8, 19, 24, 20, 15, 18, 3, 13, 7, 11, 23, 0, 22, 12, 9, 16, 14, 5, 4, 2, 10]

/-- TC-E reflector A. -/
def reflectorA : Wiring 26 := #v[4, 9, 12, 25, 0, 11, 24, 23, 21, 1, 22, 5, 2, 17, 16, 20, 14, 13, 19, 18, 15, 8, 10, 7, 6, 3]

/-- TC-E reflector B. -/
def reflectorB : Wiring 26 := #v[24, 17, 20, 7, 16, 18, 11, 3, 15, 23, 13, 6, 14, 10, 12, 8, 4, 1, 5, 25, 2, 22, 21, 9, 0, 19]

/-- TC-E reflector C. -/
def reflectorC : Wiring 26 := #v[5, 21, 15, 9, 8, 0, 14, 24, 4, 3, 17, 25, 23, 22, 6, 2, 19, 10, 20, 16, 18, 1, 13, 12, 7, 11]

/-- TC-S large rotor L5. -/
def largeL5 : Wiring 26 := #v[20, 22, 24, 6, 0, 3, 5, 15, 21, 25, 1, 4, 2, 10, 12, 19, 7, 23, 18, 11, 17, 8, 13, 16, 14, 9]

/-- TC-S large rotor L6. -/
def largeL6 : Wiring 26 := #v[0, 9, 15, 2, 25, 22, 17, 11, 5, 1, 3, 10, 14, 19, 24, 20, 16, 6, 4, 13, 7, 23, 12, 8, 21, 18]

/-- TC-S large rotor L7. -/
def largeL7 : Wiring 26 := #v[19, 0, 6, 1, 15, 2, 18, 3, 16, 4, 20, 5, 21, 13, 25, 7, 24, 8, 23, 9, 22, 11, 17, 10, 14, 12]

/-- TC-S large rotor L8. -/
def largeL8 : Wiring 26 := #v[7, 25, 22, 21, 0, 17, 19, 13, 11, 6, 20, 15, 23, 16, 2, 4, 9, 12, 1, 18, 10, 3, 24, 14, 8, 5]

/-- TC-S large rotor L9. -/
def largeL9 : Wiring 26 := #v[16, 2, 24, 11, 23, 22, 4, 13, 5, 19, 25, 14, 18, 12, 21, 9, 20, 3, 10, 6, 8, 0, 17, 15, 7, 1]

/-- TC-S index rotor X0. -/
def indexX0 : Wiring 10 := #v[7, 5, 9, 1, 4, 8, 2, 6, 3, 0]

/-- TC-S index rotor X1. -/
def indexX1 : Wiring 10 := #v[3, 8, 1, 0, 5, 9, 2, 7, 6, 4]

/-- TC-S index rotor X2. -/
def indexX2 : Wiring 10 := #v[4, 0, 8, 6, 1, 5, 3, 2, 9, 7]

/-- TC-S index rotor X3. -/
def indexX3 : Wiring 10 := #v[3, 9, 8, 0, 5, 2, 6, 1, 7, 4]

/-- TC-S index rotor X4. -/
def indexX4 : Wiring 10 := #v[6, 4, 9, 7, 1, 3, 5, 2, 8, 0]

/-- TC-M wheel alphabets: A–Z, A–Z without W, A–X without W, A–U, A–S, A–Q. -/
def wheelAlphabets : Vector (List Letter) 6 :=
  #v[List.finRange 26, (List.finRange 26).filter (· ≠ 22), ((List.finRange 26).take 24).filter (· ≠ 22),
    (List.finRange 26).take 21, (List.finRange 26).take 19, (List.finRange 26).take 17]

/-- TC-E, TC-M and TC-S together, at bus address 0x1000. -/
def testParameters : Parameters where
  eWiring := #v[rotorI, rotorII, rotorIII, rotorIV, rotorV]
  eNotch := #v[16, 4, 21, 9, 25]
  eRefl := [reflectorA, reflectorB, reflectorC]
  mAlpha := wheelAlphabets
  mDefaultPins := Machine.clearedPins
  sWiring := #v[rotorI, rotorII, rotorIII, rotorIV, rotorV, largeL5, largeL6, largeL7, largeL8, largeL9]
  sIWiring := #v[indexX0, indexX1, indexX2, indexX3, indexX4]
  sClass := #v[9, 1, 2, 3, 3, 4, 4, 4, 5, 5, 5, 6, 6, 6, 6, 7, 7, 7, 7, 7, 8, 8, 8, 8, 8, 8]
  coreBase := 0x1000

end Sys2Proof.Tests
end

