-- ==== Sys2Proof/Tests/Slice0.lean ====
section
/-! SUPPORT. Tests of the model and witnesses for the statements. Words and expected answers are those of spec/95_test_vectors.md (its section in each comment) or written out from spec/30_encoding.md; the catalogues are TC-E, TC-M and TC-S. -/

namespace Sys2Proof.Tests

open Sys2Proof.Machine Sys2Proof.Claims

/-! ### Small states -/

/-- Right after reset, with the test catalogues. -/
def resetTC : State := State.resetWith testParameters

/-- Key registers after reset. -/
def noKeys : KeyRegs := KeyRegs.afterReset testParameters

/-- The E1 keys of §4.1, reflector A. -/
def enigmaKeys : KeyRegs :=
  { noKeys with
    erot := #v[0, 1, 2]
    eref := 0
    epos := #v[0, 1, 2]
    ering := #v[0, 1, 2]
    eplug := #v[#v[0, 1, 2, 4, 3, 5, 6, 7, 8, 9], #v[10, 11, 12, 13, 14, 15, 16, 17, 18, 19]] }

/-- Key ABCDEF, no lugs (§4.2). -/
def m209Keys : KeyRegs := { noKeys with mkey := #v[0, 1, 2, 3, 4, 5] }

/-- The E3 keys of §5.1. -/
def sigabaKeys : KeyRegs :=
  { noKeys with
    scrot := #v[4, 8, 1, 3, 2]
    skrot := #v[8, 5, 0, 6, 7]
    sirot := #v[1, 0, 4, 3, 2]
    sind := #v[19, 0, 1, 11, 4]
    skpos := #v[6, 17, 0, 15, 7]
    sipos := #v[0, 2, 3, 6, 7] }

/-- No run, with these keys. -/
def keyed (keys : KeyRegs) : State := { resetTC with keys := keys }

/-- An Enigma run at its start. -/
def enigmaRun : State := { keyed enigmaKeys with mode := .enigma, eng := enigmaSetup enigmaKeys }

/-- An M-209 run at its start. -/
def m209Run : State := { keyed m209Keys with mode := .m209, m209 := m209Setup testParameters m209Keys }

/-- A SIGABA run at its start, encode. -/
def sigabaRun : State := { keyed sigabaKeys with mode := .sigabaEnc, sig := sigabaSetup sigabaKeys }

/-- A SIGABA run at its start, decode. -/
def sigabaDecRun : State := { sigabaRun with mode := .sigabaDec }

/-- The state after one word on the port. -/
def after (s : State) (w : Word32) : State := (portStep s w).1

/-- The answer to one word on the port. -/
def answer (s : State) (w : Word32) : Word32 := (portStep s w).2

/-! ### WellFormed refuses each selector out of range (R107) -/

theorem test_start_machine_out_of_range : ¬ (Instr.start 3#8 0#8).WellFormed := by decide
theorem test_start_direction_out_of_range : ¬ (Instr.start 0#8 2#8).WellFormed := by decide
theorem test_read_group_out_of_range : ¬ (Instr.read 9#8 0#8).WellFormed := by decide
theorem test_read_slot_out_of_range : ¬ (Instr.read 1#8 3#8).WellFormed := by decide
theorem test_engRotor_out_of_range : ¬ (Instr.engRotor 3#8 0#8).WellFormed := by decide
theorem test_engPos_out_of_range : ¬ (Instr.engPos 3#8 0#8).WellFormed := by decide
theorem test_engRing_out_of_range : ¬ (Instr.engRing 3#8 0#8).WellFormed := by decide
theorem test_engPlug_string_out_of_range : ¬ (Instr.engPlug 2#8 0#8 0#8).WellFormed := by decide
theorem test_engPlug_index_out_of_range : ¬ (Instr.engPlug 1#8 10#8 0#8).WellFormed := by decide
theorem test_m209Key_out_of_range : ¬ (Instr.m209Key 6#8 0#8).WellFormed := by decide
theorem test_m209Pin_wheel_out_of_range : ¬ (Instr.m209Pin 6#8 0#8 0#8).WellFormed := by decide
theorem test_m209Pin_pin_out_of_range : ¬ (Instr.m209Pin 1#8 25#8 0#8).WellFormed := by decide
theorem test_m209Lug_out_of_range : ¬ (Instr.m209Lug 0#8 27#8 0#8).WellFormed := by decide
theorem test_sigCrot_out_of_range : ¬ (Instr.sigCrot 5#8 0#8).WellFormed := by decide
theorem test_sigKrot_out_of_range : ¬ (Instr.sigKrot 5#8 0#8).WellFormed := by decide
theorem test_sigIrot_out_of_range : ¬ (Instr.sigIrot 5#8 0#8).WellFormed := by decide
theorem test_sigInd_out_of_range : ¬ (Instr.sigInd 5#8 0#8).WellFormed := by decide
theorem test_sigKpos_out_of_range : ¬ (Instr.sigKpos 5#8 0#8).WellFormed := by decide
theorem test_sigIpos_out_of_range : ¬ (Instr.sigIpos 5#8 0#8).WellFormed := by decide
theorem test_last_selectors_in_range : (Instr.m209Pin 5#8 16#8 2#8).WellFormed ∧ (Instr.read 8#8 0#8).WellFormed := by
  decide

/-! ### Decoding: each command's word, written out from R105 (fields op, a, b, c) -/

theorem test_decode_nop : decode (0b00000000000000000000000000000000#32) = .ok .nop := by decide
theorem test_decode_sreset : decode (0b00000001000000000000000000000000#32) = .ok .sreset := by decide
theorem test_decode_start : decode (0b00000010000000100000000100000000#32) = .ok (.start 2#8 1#8) := by decide
theorem test_decode_endRun : decode (0b00000011000000000000000000000000#32) = .ok .endRun := by decide
theorem test_decode_symbol : decode (0b00000100000000000000000000010110#32) = .ok (.symbol 22#8) := by decide
theorem test_decode_read : decode (0b00000101000001100000010000000000#32) = .ok (.read 6#8 4#8) := by decide
theorem test_decode_engRotor : decode (0b00010000000000000000001000000100#32) = .ok (.engRotor 2#8 4#8) := by decide
theorem test_decode_engRefl : decode (0b00010001000000000000000000000001#32) = .ok (.engRefl 1#8) := by decide
theorem test_decode_engPos : decode (0b00010010000000000000000100011001#32) = .ok (.engPos 1#8 25#8) := by decide
theorem test_decode_engRing : decode (0b00010011000000000000001000000001#32) = .ok (.engRing 2#8 1#8) := by decide
theorem test_decode_engPlug : decode (0b00010100000000010000100100001010#32) = .ok (.engPlug 1#8 9#8 10#8) := by decide
theorem test_decode_m209Key : decode (0b00100000000000000000010100000011#32) = .ok (.m209Key 5#8 3#8) := by decide
theorem test_decode_m209Pin : decode (0b00100001000000110001010000000001#32) = .ok (.m209Pin 3#8 20#8 1#8) := by decide
theorem test_decode_m209Lug : decode (0b00100010000000010001101000000110#32) = .ok (.m209Lug 1#8 26#8 6#8) := by decide
theorem test_decode_sigCrot : decode (0b00110000000000000000000100001000#32) = .ok (.sigCrot 1#8 8#8) := by decide
theorem test_decode_sigKrot : decode (0b00110001000000000000001000001001#32) = .ok (.sigKrot 2#8 9#8) := by decide
theorem test_decode_sigIrot : decode (0b00110010000000000000001100000100#32) = .ok (.sigIrot 3#8 4#8) := by decide
theorem test_decode_sigInd : decode (0b00110011000000000000010000010011#32) = .ok (.sigInd 4#8 19#8) := by decide
theorem test_decode_sigKpos : decode (0b00110100000000000000010000000111#32) = .ok (.sigKpos 4#8 7#8) := by decide
theorem test_decode_sigIpos : decode (0b00110101000000000000000000001001#32) = .ok (.sigIpos 0#8 9#8) := by decide

/-- Reserved opcodes at the edges of their ranges (R108). -/
theorem test_decode_reserved :
    [0x06, 0x0F, 0x15, 0x1F, 0x23, 0x2F, 0x36, 0xFF].map (fun op => decode (packWord (BitVec.ofNat 8 op) 0 0 0)) =
      List.replicate 8 (.error .reservedOpcode) := by decide

/-- Must-be-zero fields (§6; `SYMBOL` with b = 1 too, log 11). -/
theorem test_decode_nonzero_fields :
    [0x00000100#32, 0x01000001#32, 0x03000001#32, 0x05000001#32, 0x02000001#32, 0x04010000#32, 0x04000100#32,
      0x10010000#32, 0x11000100#32, 0x35010000#32].map decode = List.replicate 10 (.error .nonzeroField) := by decide

/-- The bytes of a word as they lie on the bus (R84), and a command cut short. -/
theorem test_decode_bytes :
    decodeBytes [0x02#8, 0x02#8, 0x00#8, 0x10#8] = .ok (.engRotor 2#8 2#8) ∧
    decodeBytes [0x02#8, 0x02#8, 0x00#8] = .error .notOneWord := by decide

theorem test_decodeTableWord : decodeTableWord 32 0x22011A06 = some (.m209Lug 1#8 26#8 6#8) := by decide

/-! ### One step of each command -/

theorem test_nop : answer m209Run 0x00000000#32 = 0#32 := by decide
theorem test_sreset_in_a_run :
    answer m209Run 0x01000000#32 = 0#32 ∧ (after m209Run 0x01000000#32).mode = .idle ∧
    (after m209Run 0x01000000#32).keys.mkey = Vector.replicate 6 0xFF#8 := by decide
/-- §4.1: `EP` after `START` is (0, 0, 0), the bank is (2, 1, 0). -/
theorem test_start_enigma :
    let t := after (keyed enigmaKeys) 0x02000100#32
    t.mode = .enigma ∧ t.eng.ewid = #v[2, 1, 0] ∧ t.eng.ep = #v[0, 0, 0] := by decide
/-- §4.2: key ABCDEF gives `ACT` = (15, 15, 15, 15, 15, 15). -/
theorem test_start_m209 :
    let t := after (keyed m209Keys) 0x02010000#32
    t.mode = .m209 ∧ t.m209.act = #v[15, 15, 15, 15, 15, 15] := by decide +kernel
theorem test_end_of_a_run :
    answer sigabaRun 0x03000000#32 = 0#32 ∧ (after sigabaRun 0x03000000#32).mode = .idle := by decide
theorem test_end_idle : answer resetTC 0x03000000#32 = 0#32 := by decide
/-- §4.1: `SYM H` as the first symbol responds E, and `EP` becomes (1, 0, 0). -/
theorem test_symbol_enigma :
    answer enigmaRun 0x04000007#32 = 0x00000004#32 ∧ (after enigmaRun 0x04000007#32).eng.ep = #v[1, 0, 0] := by
  decide +kernel
/-- §5.1 row 1: H to C, `ADV` 29, `CP` UACMF, `KP` GRBPH, `CAD` 1. -/
theorem test_symbol_sigaba :
    let t := after sigabaRun 0x04000007#32
    t.rsp = 2#32 ∧ t.sig.adv = 29#5 ∧ t.sig.cp = #v[20, 0, 2, 12, 5] ∧ t.sig.kp = #v[6, 17, 1, 15, 7] ∧
      t.sig.cad = 1#10 := by decide +kernel
theorem test_read_act : answer m209Run 0x05020000#32 = 0x0000000F#32 := by decide +kernel
theorem test_read_other_machine :
    answer m209Run 0x05010000#32 = 0x04000000#32 ∧ answer m209Run 0x05090000#32 = 0x02000000#32 := by decide
theorem test_engRotor :
    answer resetTC 0x10000202#32 = 0#32 ∧ (after resetTC 0x10000202#32).keys.erot = #v[0xFF, 0xFF, 2] := by decide
theorem test_engRotor_bad_slot : answer resetTC 0x10000300#32 = 0x02000000#32 := by decide
theorem test_engRefl : (after resetTC 0x11000000#32).keys.eref = 0#8 := by decide
theorem test_engRefl_nonzero_field : answer resetTC 0x11000100#32 = 0x01000000#32 := by decide
theorem test_engPos : (after resetTC 0x12000101#32).keys.epos = #v[0xFF, 1, 0xFF] := by decide
theorem test_engPos_busy : answer enigmaRun 0x12000101#32 = 0x03000000#32 := by decide
theorem test_engRing : (after resetTC 0x13000202#32).keys.ering = #v[0xFF, 0xFF, 2] := by decide
theorem test_engPlug :
    (after resetTC 0x1401000A#32).keys.eplug[1][0] = 10#8 ∧ (after resetTC 0x1401000A#32).keys.eplug[0][0] = 0xFF#8 := by
  decide
theorem test_engPlug_bad_index : answer resetTC 0x14010A00#32 = 0x02000000#32 := by decide
theorem test_m209Key : (after resetTC 0x20000505#32).keys.mkey = #v[0xFF, 0xFF, 0xFF, 0xFF, 0xFF, 5] := by decide
theorem test_m209Key_bad_wheel : answer resetTC 0x200006FF#32 = 0x02000000#32 := by decide
theorem test_m209Pin :
    pinAt (after resetTC 0x21000301#32).keys.mpin 0 3 = true ∧ pinAt (after resetTC 0x21000301#32).keys.mpin 0 2 = false := by
  decide
/-- §4.2: wheel 1 has 25 pins; bit 2 is `E_BAD_PIN`; the slot is checked before the bit. -/
theorem test_m209Pin_errors :
    answer resetTC 0x21011900#32 = 0x02000000#32 ∧ answer resetTC 0x21051002#32 = 0x0D000000#32 ∧
    answer resetTC 0x21070005#32 = 0x02000000#32 := by decide
/-- §4.2: bar 26, registers 0xFF and 7, stored raw. -/
theorem test_m209Lug :
    let t := after resetTC 0x22FF1A07#32
    t.rsp = 0#32 ∧ t.keys.mluga[26] = 0xFF#8 ∧ t.keys.mlugb[26] = 7#8 := by decide
theorem test_m209Lug_bad_bar : answer resetTC 0x22001B00#32 = 0x02000000#32 := by decide
theorem test_sigCrot : (after resetTC 0x30000108#32).keys.scrot = #v[0xFF, 8, 0xFF, 0xFF, 0xFF] := by decide
theorem test_sigKrot : (after resetTC 0x31000008#32).keys.skrot = #v[8, 0xFF, 0xFF, 0xFF, 0xFF] := by decide
theorem test_sigIrot : (after resetTC 0x32000204#32).keys.sirot = #v[0xFF, 0xFF, 4, 0xFF, 0xFF] := by decide
theorem test_sigInd : (after resetTC 0x33000013#32).keys.sind = #v[19, 0xFF, 0xFF, 0xFF, 0xFF] := by decide
theorem test_sigInd_bad_slot : answer resetTC 0x33000520#32 = 0x02000000#32 := by decide
theorem test_sigKpos : (after resetTC 0x34000407#32).keys.skpos = #v[0xFF, 0xFF, 0xFF, 0xFF, 7] := by decide
theorem test_sigIpos : (after resetTC 0x35000407#32).keys.sipos = #v[0xFF, 0xFF, 0xFF, 0xFF, 7] := by decide
theorem test_sigIpos_bad_slot : answer resetTC 0x35000500#32 = 0x02000000#32 := by decide

/-! ### The engine (§3) -/

/-- §3.1, TC-E I: A at 1 gives J, J at 1 inverted gives A, A at -1 gives K, A inverted at 0 gives U. -/
theorem test_rotorPass :
    rotorPass 0 rotorI 1 false = 9 ∧ rotorPass 9 rotorI 1 true = 0 ∧ rotorPass 0 rotorI (-1) false = 10 ∧
    rotorPass 0 rotorI 0 true = 20 := by decide
/-- §3.1, X0: digit 1 at 3 gives 1, digit 9 at 9 gives 4. -/
theorem test_rotorPass_digits : rotorPass 1 indexX0 3 false = 1 ∧ rotorPass 9 indexX0 9 false = 4 := by decide
/-- A bank of rotors III, II, I at the given positions (§3.2). -/
def bankAt (ep : Vector (BitVec 5) 3) : EnigmaRegs := { EnigmaRegs.afterReset with ewid := #v[2, 1, 0], ep := ep }
/-- §3.2: (b), (c), (d) and (e). -/
theorem test_stepEnigma :
    stepEnigma testParameters (bankAt #v[20, 0, 0]) = #v[21, 1, 0] ∧
    stepEnigma testParameters (bankAt #v[20, 3, 0]) = #v[21, 5, 1] ∧
    stepEnigma testParameters (bankAt #v[0, 4, 7]) = #v[1, 5, 8] ∧
    stepEnigma testParameters (bankAt #v[20, 4, 7]) = #v[21, 5, 7] := by decide
/-- §3.3: every wheel wraps at its own length. -/
theorem test_stepM209 : stepM209 #v[25, 24, 22, 20, 18, 16] = #v[0, 0, 0, 0, 0, 0] := by decide
/-- §3.4: symbol 26 and symbol 676. -/
theorem test_stepSigabaControl :
    stepSigabaControl #v[6, 17, 25, 15, 7] 25 = (#v[6, 17, 0, 16, 7], 26) ∧
    stepSigabaControl #v[6, 17, 25, 14, 7] 675 = (#v[6, 18, 0, 15, 7], 0) := by decide
/-- §3.4: `XO` = (5, 6, 6, 6) advances registers 2 and 3 once each. -/
theorem test_stepSigabaCipher :
    stepSigabaCipher #v[0, 0, 0, 25, 0] #v[5, 6, 6, 6] = (#v[0, 0, 1, 0, 0], 12) := by decide
/-- §4.2: a bar naming one wheel twice counts once; all pins active. -/
theorem test_keystream :
    keystream { M209Regs.afterReset with
      ps := { clearedPins with w2 := Vector.replicate 23 true }
      la := (Vector.replicate 27 0#3).set 4 3
      lb := (Vector.replicate 27 0#3).set 4 3 } = 1 := by decide
/-- §4.2: (25 + 27 - 0) mod 26 = 0 and (25 + 6 - 12) mod 26 = 19. -/
theorem test_m209Output : m209Output 27 0 = 0 ∧ m209Output 6 12 = 19 := by decide

/-! ### Refused keys (§4.1, §4.2, §5.4) -/

/-- `EROT[0]` = 5 with `ERING[0]` unset, and with `EPOS[0]` = 26: the presence check and the rotor check come first. -/
theorem test_start_enigma_order :
    answer (keyed { enigmaKeys with erot := #v[5, 1, 2], ering := #v[0xFF, 1, 2] }) 0x02000000#32 = 0x05000000#32 ∧
    answer (keyed { enigmaKeys with erot := #v[5, 1, 2], epos := #v[26, 1, 2] }) 0x02000000#32 = 0x06000000#32 := by
  decide
/-- `MKEY[1]` = W: wheel 1 has no W. -/
theorem test_start_m209_wheel_key :
    answer (keyed { noKeys with mkey := #v[0, 22, 2, 3, 4, 5] }) 0x02010000#32 = 0x0A000000#32 := by decide +kernel
/-- `SIPOS[2]` = 10. -/
theorem test_start_sigaba_digit :
    answer (keyed { sigabaKeys with sipos := #v[0, 2, 10, 6, 7] }) 0x02020000#32 = 0x0C000000#32 := by decide

/-! ### The step, the bus and the host side -/

/-- A word placed as the next command runs in the next step from reset. -/
theorem test_step_from_reset :
    step (State.reset.withFetchWord 32 0x11000002) =
      .next { State.reset with keys := { State.reset.keys with eref := 2#8 }, rsp := 0#32 } := by rfl
/-- A write of `CMD` is a command; a byte write is not admitted (R83, R85). -/
theorem test_bus :
    serve (.write 0x1000 4 0x00000000#32) resetTC = .next { resetTC with rsp := 0#32 } ∧
    serve (.write 0x1000 1 0x00000000#32) resetTC = .fault .busAccessNotAdmitted := by
  exact ⟨rfl, rfl⟩
/-- R113: three lines of the syntax table. -/
theorem test_assembleLine :
    (assembleLine "M209.LUG 26, 1, 6".toList).map encode = some 0x22011A06#32 ∧
    (assembleLine "START ENIGMA, DEC".toList).map encode = some 0x02000100#32 ∧
    (assembleLine "SIG.CROT 4, UNSET".toList).map encode = some 0x300004FF#32 := by decide
/-- The lines of R221, R343 and §6 of the vectors with numbers for a pin bit and for the operands of `START` (log 17). -/
theorem test_assembleLine_numbers :
    (assembleLine "M209.PIN 5, 17, 1".toList).map encode = some 0x21051101#32 ∧
    (assembleLine "M209.PIN 7, 0, 5".toList).map encode = some 0x21070005#32 ∧
    (assembleLine "START 3, 0".toList).map encode = some 0x02030000#32 ∧
    (assembleLine "M209.PIN 0, 3, +".toList).map encode = some 0x21000301#32 := by decide
/-- R114: the expansion of `ENG.ROTORS`; the model's choice on `UNSET` in it (log 17). -/
theorem test_expandPseudo :
    (expandPseudo (.engRotors ["I".toList, "V".toList, "III".toList])).map (·.map encode) =
      some [0x10000000#32, 0x10000104#32, 0x10000202#32] ∧
    expandPseudo (.engRotors ["I".toList, "UNSET".toList, "III".toList]) = none := by decide
/-- §6: a space in the text is refused before any command. -/
theorem test_host_bad_text :
    (enigmaEncode resetTC ⟨"HELLO WORLD".toList, ["I".toList, "II".toList, "III".toList], "A".toList, "ABC".toList,
      ["ABCEDFGHIJ".toList, "KLMNOPQRST".toList], "ABC".toList⟩).2 = .error (.host .badText) := by decide

/-! ### Witnesses: states and operands that meet the hypotheses of the statements, clause by clause -/

theorem testParameters_wellFormed : testParameters.WellFormed := by decide +kernel
theorem enigmaRun_sound : enigmaRun.Sound := by decide +kernel
theorem m209Run_sound : m209Run.Sound := by decide +kernel
theorem sigabaRun_sound : sigabaRun.Sound := by decide +kernel
theorem enigma_started : Started 0#8 0#8 (keyed enigmaKeys) enigmaRun := ⟨rfl, by rfl, by decide⟩
theorem enigma_started_decode : Started 0#8 1#8 (keyed enigmaKeys) enigmaRun := ⟨rfl, by rfl, by decide⟩
theorem m209_started : Started 1#8 0#8 (keyed m209Keys) m209Run := ⟨rfl, by rfl, by decide⟩
theorem sigaba_started : Started 2#8 0#8 (keyed sigabaKeys) sigabaRun := ⟨rfl, by rfl, by decide⟩
theorem sigaba_started_decode : Started 2#8 1#8 (keyed sigabaKeys) sigabaDecRun := ⟨rfl, by rfl, by decide⟩
theorem message : IsMessage [0#8, 25#8, 7#8] := by decide

theorem witness_EncodeOfDecode : decode 0x22FF1A07#32 = .ok (.m209Lug 0xFF#8 26#8 7#8) := by decide

/-- Both ends of every reserved range, and one nonzero field of each of a, b and c. -/
theorem witness_ReservedWordsAreIllegal :
    ([0x06000000#32, 0x0F000000#32, 0x15000000#32, 0x1F000000#32, 0x23000000#32, 0x2F000000#32, 0x36000000#32,
      0xFF000000#32].all fun w => decide (
        (6 ≤ (opField w).toNat ∧ (opField w).toNat ≤ 0x0F) ∨ (0x15 ≤ (opField w).toNat ∧ (opField w).toNat ≤ 0x1F) ∨
        (0x23 ≤ (opField w).toNat ∧ (opField w).toNat ≤ 0x2F) ∨ 0x36 ≤ (opField w).toNat)) = true ∧
    ((0x04#8, true, true, false) ∈ mustBeZero ∧ opField 0x04010000#32 = 0x04#8 ∧ aField 0x04010000#32 ≠ 0#8) ∧
    ((0x04#8, true, true, false) ∈ mustBeZero ∧ opField 0x04000100#32 = 0x04#8 ∧ bField 0x04000100#32 ≠ 0#8) ∧
    ((0x02#8, false, false, true) ∈ mustBeZero ∧ opField 0x02000001#32 = 0x02#8 ∧ cField 0x02000001#32 ≠ 0#8) := by
  decide

/-- A state with one access waiting. -/
def waiting (event : PortEvent) : State := { resetTC with inbox := [event] }

theorem witness_StepRunsTheDecodedCommand :
    decode 0#32 = .ok .nop ∧ (waiting (.command 0#32)).inbox = .command 0#32 :: [] ∧
    resetTC.par.coreBase % 4 = 0 ∧
    (waiting (.write 0x1000 4 0#32)).inbox = .write (waiting (.write 0x1000 4 0#32)).par.coreBase 4 0#32 :: [] := by
  refine ⟨by decide, rfl, by decide, rfl⟩

theorem witness_StepWaitsForTheHost : resetTC.inbox = [] := rfl

/-- A base address; another width, a misaligned address, another word; a read of `CMD`. -/
theorem witness_BusAccesses :
    resetTC.par.coreBase % 8 = 0 ∧
    (1 : Nat) ≠ 4 ∧ 0x1002 % 4 ≠ 0 ∧ 0x1004 ≠ resetTC.par.coreBase ∧ 0x1000 ≠ resetTC.par.coreBase + 4 := by decide

/-- The key writes of one register each: the first slot out of range, and the last slot, in a run and with none. -/
theorem witness_key_writes :
    (opField 0x10010000#32 = 0x10#8 ∧ aField 0x10010000#32 ≠ 0#8) ∧ 3 ≤ (3#8).toNat ∧ (2#8).toNat < 3 ∧
    6 ≤ (6#8).toNat ∧ (5#8).toNat < 6 ∧ 5 ≤ (5#8).toNat ∧ (4#8).toNat < 5 ∧
    enigmaRun.mode ≠ .idle ∧ resetTC.mode = .idle := by decide

theorem witness_EnigmaReflectorWrite :
    (opField 0x11010000#32 = 0x11#8 ∧ aField 0x11010000#32 ≠ 0#8) ∧
    (opField 0x11000100#32 = 0x11#8 ∧ bField 0x11000100#32 ≠ 0#8) ∧ m209Run.mode ≠ .idle ∧ resetTC.mode = .idle := by
  decide

theorem witness_EnigmaPlugWrite :
    1 < (2#8).toNat ∧ 9 < (10#8).toNat ∧ (1#8).toNat ≤ 1 ∧ (9#8).toNat ≤ 9 ∧ sigabaRun.mode ≠ .idle ∧
    resetTC.mode = .idle := by decide

theorem witness_M209PinWrite :
    5 < (6#8).toNat ∧ wheelLength (1#8).toNat ≤ (25#8).toNat ∧ (5#8).toNat ≤ 5 ∧
    (16#8).toNat < wheelLength (5#8).toNat ∧ enigmaRun.mode ≠ .idle ∧ resetTC.mode = .idle ∧ 1 < (2#8).toNat ∧
    (1#8).toNat ≤ 1 := by decide

theorem witness_M209LugWrite :
    26 < (27#8).toNat ∧ (26#8).toNat ≤ 26 ∧ m209Run.mode ≠ .idle ∧ resetTC.mode = .idle := by decide

theorem witness_NopDoesNothing :
    opField 0x00000100#32 = 0#8 ∧ bField 0x00000100#32 ≠ 0#8 := by decide

theorem witness_StartAndSymbolRefusals :
    2 < (3#8).toNat ∧ 1 < (2#8).toNat ∧ (2#8).toNat ≤ 2 ∧ (1#8).toNat ≤ 1 ∧ m209Run.mode ≠ .idle ∧
    resetTC.mode = .idle ∧ 25 < (26#8).toNat := by decide

/-- One set of keys for each check of `START ENIGMA` (§4.1). -/
theorem witness_StartEnigmaValidates :
    (opField 0x02000001#32 = 2#8 ∧ cField 0x02000001#32 ≠ 0#8) ∧ 1 < (2#8).toNat ∧ (1#8).toNat ≤ 1 ∧
    enigmaRun.mode ≠ .idle ∧ (keyed enigmaKeys).mode = .idle ∧
    enigmaVerdict testParameters { enigmaKeys with ering := #v[0, 0xFF, 2] } = some 0x05000000#32 ∧
    enigmaVerdict testParameters { enigmaKeys with erot := #v[5, 1, 2] } = some 0x06000000#32 ∧
    enigmaVerdict testParameters { enigmaKeys with eref := 3 } = some 0x07000000#32 ∧
    enigmaVerdict testParameters { enigmaKeys with epos := #v[0, 1, 26] } = some 0x08000000#32 ∧
    enigmaVerdict testParameters
      { enigmaKeys with eplug := #v[enigmaKeys.eplug[0], enigmaKeys.eplug[1].set 0 0] } = some 0x09000000#32 := by
  decide +kernel

/-- The E1 keys pass, A is plugged to K, and U is in no plug. -/
theorem witness_StartEnigmaSetsUp :
    (1#8).toNat ≤ 1 ∧ (keyed enigmaKeys).mode = .idle ∧ enigmaVerdict testParameters enigmaKeys = none ∧
    PlugPairIs enigmaKeys 0 0 10 ∧ ∀ (k : Fin 2) (i : Fin 10), enigmaKeys.eplug[k][i].toNat ≠ (20 : Letter).val := by
  decide +kernel

/-- One set of keys for each check of `START M209` (§4.2). -/
theorem witness_StartM209Validates :
    1 < (2#8).toNat ∧ (1#8).toNat ≤ 1 ∧ m209Run.mode ≠ .idle ∧ (keyed m209Keys).mode = .idle ∧
    m209Verdict testParameters { m209Keys with mkey := #v[0, 1, 2, 3, 4, 0xFF] } = some 0x05000000#32 ∧
    m209Verdict testParameters { m209Keys with mkey := #v[26, 1, 2, 3, 4, 5] } = some 0x08000000#32 ∧
    m209Verdict testParameters { m209Keys with mkey := #v[0, 22, 2, 3, 4, 5] } = some 0x0A000000#32 ∧
    m209Verdict testParameters { m209Keys with mlugb := (Vector.replicate 27 0#8).set 26 7 } = some 0x0B000000#32 := by
  decide +kernel

theorem witness_StartM209SetsUp :
    m209Verdict testParameters m209Keys = none ∧ (0 : Letter).val = m209Keys.mkey[(0 : Fin 6)].toNat := by
  decide +kernel

/-- One set of keys for each check of `START SIGABA` (§5.4). -/
theorem witness_StartSigabaValidates :
    1 < (2#8).toNat ∧ (1#8).toNat ≤ 1 ∧ sigabaRun.mode ≠ .idle ∧ (keyed sigabaKeys).mode = .idle ∧
    sigabaVerdict { sigabaKeys with sipos := #v[0, 2, 3, 6, 0xFF] } = some 0x05000000#32 ∧
    sigabaVerdict { sigabaKeys with sirot := #v[5, 0, 4, 3, 2] } = some 0x06000000#32 ∧
    sigabaVerdict { sigabaKeys with sind := #v[19, 0, 1, 26, 4] } = some 0x08000000#32 ∧
    sigabaVerdict { sigabaKeys with sipos := #v[0, 2, 10, 6, 7] } = some 0x0C000000#32 := by decide +kernel

theorem witness_StartSigabaSetsUp : sigabaVerdict sigabaKeys = none := by decide +kernel

theorem witness_EndEndsTheRun :
    (opField 0x03000001#32 = 3#8 ∧ cField 0x03000001#32 ≠ 0#8) ∧ resetTC.mode = .idle ∧ enigmaRun.mode ≠ .idle ∧
    1 ≤ (8#8).toNat ∧ (0#8).toNat < readGroupSlots (8#8).toNat := by decide

theorem witness_modes :
    enigmaRun.mode = .enigma ∧ m209Run.mode = .m209 ∧ sigabaRun.mode.isSigaba = true ∧
    sigabaDecRun.mode.isSigaba = true ∧ (25#8).toNat ≤ 25 := by decide

theorem witness_ReadReturnsTheRegister :
    (opField 0x05000001#32 = 5#8 ∧ cField 0x05000001#32 ≠ 0#8) ∧ readGroupSlots (9#8).toNat ≤ (0#8).toNat ∧
    readGroupSlots (1#8).toNat ≤ (3#8).toNat ∧ readGroupSlots (2#8).toNat ≤ (6#8).toNat := by decide

theorem witness_RotorPassComputes :
    ((1 : Fin 26).val : Int) = ((0 : Fin 26).val + 27) % 26 ∧ rotorI.IsPermutation ∧ rotorI[(20 : Fin 26)] = 0 ∧
    (∀ i : Fin 10, (Vector.ofFn fun j => j : Wiring 10)[i] = i) := by decide +kernel

theorem witness_RotorPassInverts : rotorII.IsPermutation ∧ indexX1.IsPermutation := by decide +kernel

/-- The notches are 21 and 4; cases (a) to (e) of R146. -/
theorem witness_EnigmaStepCases :
    (∀ k : Fin 3, (bankAt #v[25, 4, 25]).ep[k].toNat < 26) ∧
    (enigmaNotch testParameters (bankAt #v[0, 0, 0]).ewid[(0 : Fin 3)]).val = 21 ∧
    (enigmaNotch testParameters (bankAt #v[0, 0, 0]).ewid[(1 : Fin 3)]).val = 4 ∧
    ((25 + 1) % 26 ≠ 21 ∧ 25 ≠ 4) ∧ ((20 + 1) % 26 = 21 ∧ (25 + 1) % 26 ≠ 4) ∧ ((20 + 1) % 26 = 21 ∧ (3 + 1) % 26 = 4) ∧
    ((21 + 1) % 26 ≠ 21 ∧ 4 = 4) := by decide

theorem witness_M209WheelPeriod :
    ∀ w : Fin 6, (#v[25, 24, 22, 20, 18, 16] : Vector (BitVec 5) 6)[w].toNat < wheelLength w := by decide

/-- Positions in range; a run that starts with `CAD` = 0, and the state after the second symbol of a message. -/
theorem witness_SigabaControlCadence :
    (∀ j : Fin 5, (#v[6, 17, 25, 15, 7] : Vector (BitVec 5) 5)[j].toNat < 26) ∧
    sigabaRun.mode.isSigaba = true ∧ (∀ j : Fin 5, sigabaRun.sig.kp[j].toNat < 26) ∧ sigabaRun.sig.cad = 0#10 ∧
    IsMessage [7#8, 25#8] ∧ ∃ r, (sigabaStates sigabaRun [7#8, 25#8])[1]? = some r :=
  ⟨by decide, rfl, by decide, rfl, by decide, _, rfl⟩

/-- Sound runs, for the lookups of `EnigmaSymbol`, `EnigmaStepComputes` and `SigabaSymbol`. -/
theorem witness_lookups :
    enigmaRun.Sound ∧ enigmaRun.mode = .enigma ∧ sigabaRun.Sound ∧ sigabaRun.mode.isSigaba = true ∧
    sigabaDecRun.Sound ∧ sigabaDecRun.mode.isSigaba = true :=
  ⟨enigmaRun_sound, rfl, sigabaRun_sound, rfl, by decide +kernel, rfl⟩

/-- `XO` = (0, 1, 9, 9) names registers 0 and 4, and not register 1. -/
theorem witness_SigabaCipherAdvance :
    (∃ m : Fin 4, (#v[0, 1, 9, 9] : Vector Digit 4)[m].val / 2 = 4) ∧
    ¬ ∃ m : Fin 4, (#v[0, 1, 9, 9] : Vector Digit 4)[m].val / 2 = 1 := by decide

theorem witness_EnigmaNeverReturnsItsInput :
    enigmaRun.par.WellFormed ∧ enigmaRun.Sound ∧ enigmaRun.mode = .enigma ∧ (25#8).toNat ≤ 25 ∧
    ∃ t, exec (.symbol 25#8) enigmaRun = .next t :=
  ⟨testParameters_wellFormed, enigmaRun_sound, rfl, by decide, _, rfl⟩

theorem witness_round_trips :
    (keyed enigmaKeys).par.WellFormed ∧ Started 0#8 0#8 (keyed enigmaKeys) enigmaRun ∧
    Started 0#8 1#8 (keyed enigmaKeys) enigmaRun ∧ Started 1#8 0#8 (keyed m209Keys) m209Run ∧
    Started 2#8 0#8 (keyed sigabaKeys) sigabaRun ∧ Started 2#8 1#8 (keyed sigabaKeys) sigabaDecRun ∧
    IsMessage [0#8, 25#8, 7#8] :=
  ⟨testParameters_wellFormed, enigma_started, enigma_started_decode, m209_started, sigaba_started,
    sigaba_started_decode, message⟩

/-- Two messages of one length, one state. -/
theorem witness_same_length_messages :
    IsMessage [7#8, 4#8] ∧ IsMessage [25#8, 25#8] ∧ [25#8, 25#8].length = [7#8, 4#8].length := by decide

/-- A sound state whose next step is a symbol of a run. -/
theorem witness_StepKeepsSoundness :
    ({ enigmaRun with inbox := [.command 0x04000007#32] } : State).Sound ∧
    ({ enigmaRun with inbox := [.command 0x04000007#32] } : State).ResponseSound ∧
    ∃ t, step { enigmaRun with inbox := [.command 0x04000007#32] } = .next t :=
  ⟨enigmaRun_sound, by decide, _, rfl⟩

theorem witness_ErrorsChangeNoState :
    commandStep 0x06000000#32 resetTC = .next { resetTC with rsp := 0x01000000#32 } ∧
    ¬ ({ resetTC with rsp := 0x01000000#32 } : State).Accepted := ⟨rfl, by decide⟩

/-- A command that writes no key; a key write during a run. -/
theorem witness_KeysAreWrittenByKeyWritesOnly :
    (∃ t, exec (.symbol 0#8) m209Run = .next t) ∧ Instr.symbol 0#8 ≠ .sreset ∧ ¬ IsKeyWrite (.symbol 0#8) ∧
    (∃ t, exec (.engRefl 0#8) m209Run = .next t) ∧ Instr.engRefl 0#8 ≠ .sreset ∧ m209Run.mode ≠ .idle :=
  ⟨⟨_, rfl⟩, by decide, id, ⟨_, rfl⟩, by decide, by decide⟩

theorem witness_ModeIsWrittenByStartEndReset :
    (exec (.start 0#8 0#8) (keyed enigmaKeys) = .next enigmaRun ∧ enigmaRun.mode ≠ (keyed enigmaKeys).mode) ∧
    ∃ t, exec .endRun enigmaRun = .next t ∧ t.mode ≠ enigmaRun.mode :=
  ⟨⟨enigma_started.2.1, by decide⟩, _, rfl, by decide⟩

theorem witness_RunsIgnoreTheKeys :
    (∃ t, exec .nop enigmaRun = .next t) ∧ (∃ t, exec .endRun enigmaRun = .next t) ∧
    (∃ t, exec (.symbol 0#8) enigmaRun = .next t) ∧ ∃ t, exec (.read 1#8 0#8) enigmaRun = .next t :=
  ⟨⟨_, rfl⟩, ⟨_, rfl⟩, ⟨_, rfl⟩, ⟨_, rfl⟩⟩

theorem witness_StartReadsTheKeysOnly :
    (keyed enigmaKeys).mode = .idle ∧ ({ keyed enigmaKeys with rsp := 4#32 } : State).mode = .idle ∧
    ({ keyed enigmaKeys with rsp := 4#32 } : State).keys = (keyed enigmaKeys).keys := ⟨rfl, rfl, rfl⟩

theorem witness_BadSlotExactlyOutOfRange :
    (∃ t, exec (.engPos 3#8 0#8) resetTC = .next t) ∧ ∃ t, exec (.engPos 2#8 0#8) resetTC = .next t :=
  ⟨⟨_, rfl⟩, ⟨_, rfl⟩⟩

/-- The E3 keys with the text H, which gives C (§5.1). -/
def sigabaArgs : SigabaArgs where
  text := ['H']
  cipherRotorKeys := ["V".toList, "IX".toList, "II".toList, "IV".toList, "III".toList]
  controlRotorKeys := ["IX".toList, "VI".toList, "I".toList, "VII".toList, "VIII".toList]
  indexRotorKeys := ["II".toList, "I".toList, "V".toList, "IV".toList, "III".toList]
  indicatorKey := "TABLE".toList
  controlPositionKey := "GRAPH".toList
  indexPositionKey := "02367".toList

theorem witness_SigabaHostRoundTrip :
    resetTC.par.WellFormed ∧ (sigabaEncode resetTC sigabaArgs).2 = .ok ['C'] :=
  ⟨testParameters_wellFormed, by decide +kernel⟩

/-- A whole output; a host check that fails; a text no code stands for. -/
theorem witness_HostOperationsFailFast :
    (hostOperation (keyed m209Keys) [] (some [.m209Key 0 0, .m209Key 1 0, .m209Key 2 0, .m209Key 3 0, .m209Key 4 0,
      .m209Key 5 0]) (.start 1 0) ['A']).2 = .ok ['Z'] ∧
    (hostOperation resetTC [] (some []) .nop ['a']).2 = .error (.host .unknownName) ∧
    (true, HostError.badText) ∈ [(true, HostError.badText)] := by decide +kernel

end Sys2Proof.Tests
end

namespace Sys2Proof.Proofs.Encoding

open Sys2Proof Sys2Proof.Machine Sys2Proof.Claims

/-! ### What the decoder rejects (R108) -/

/-- Whatever reason the decoder has, the port answers `E_ILLEGAL` and changes nothing else (R108). -/
theorem illegal_of_decode_error {w : Word32} {e : DecodeError} (rejected : decode w = .error e) : Illegal w :=
  fun s => by rw [commandStep_of_error rejected s]; rfl

theorem withZeroFields_of_nonzero {fields : List Byte} {f : Byte} (i : Instr) (marked : f ∈ fields) (nonzero : f ≠ 0#8) :
    withZeroFields fields i = .error .nonzeroField := by
  have notAllZero : ¬ fields.all (· == 0#8) := fun allZero =>
    nonzero (eq_of_beq (List.all_eq_true.mp allZero f marked))
  exact if_neg notAllZero

/-- The reserved ranges of R108 meet no row of the decoder's table. -/
theorem decodeFields_of_reserved {op : Nat} (a b c : Byte)
    (reserved : (6 ≤ op ∧ op ≤ 0x0F) ∨ (0x15 ≤ op ∧ op ≤ 0x1F) ∨ (0x23 ≤ op ∧ op ≤ 0x2F) ∨ 0x36 ≤ op) :
    decodeFields op a b c = .error .reservedOpcode := by
  unfold decodeFields
  split
  case h_21 => rfl
  all_goals omega

/-- The fields among a, b, c that a row of `mustBeZero` marks "0". -/
def markedFields (row : Byte × Bool × Bool × Bool) (a b c : Byte) : List Byte :=
  (if row.2.1 then [a] else []) ++ (if row.2.2.1 then [b] else []) ++ (if row.2.2.2 then [c] else [])

theorem mem_markedFields {row : Byte × Bool × Bool × Bool} {a b c f : Byte} :
    f ∈ markedFields row a b c ↔
      (row.2.1 = true ∧ f = a) ∨ (row.2.2.1 = true ∧ f = b) ∨ (row.2.2.2 = true ∧ f = c) := by
  simp [markedFields]

/-- The decoder's table agrees with R105 row by row: the opcode of a row requires exactly the fields the row marks. -/
theorem decodeFields_of_row (a b c : Byte) :
    ∀ row ∈ mustBeZero, ∃ i, decodeFields row.1.toNat a b c = withZeroFields (markedFields row a b c) i := by
  simp only [mustBeZero, List.forall_mem_cons, List.not_mem_nil, false_imp_iff, implies_true, and_true]
  exact ⟨⟨_, rfl⟩, ⟨_, rfl⟩, ⟨_, rfl⟩, ⟨_, rfl⟩, ⟨_, rfl⟩, ⟨_, rfl⟩, ⟨_, rfl⟩, ⟨_, rfl⟩, ⟨_, rfl⟩, ⟨_, rfl⟩,
    ⟨_, rfl⟩, ⟨_, rfl⟩, ⟨_, rfl⟩, ⟨_, rfl⟩, ⟨_, rfl⟩, ⟨_, rfl⟩, ⟨_, rfl⟩, ⟨_, rfl⟩, ⟨_, rfl⟩, ⟨_, rfl⟩⟩

theorem decode_of_nonzero_marked {w : Word32} {row : Byte × Bool × Bool × Bool} {f : Byte} (known : row ∈ mustBeZero)
    (opcode : opField w = row.1) (marked : f ∈ markedFields row (aField w) (bField w) (cField w)) (nonzero : f ≠ 0#8) :
    decode w = .error .nonzeroField := by
  obtain ⟨i, rowMeaning⟩ := decodeFields_of_row (aField w) (bField w) (cField w) row known
  rw [decode, opcode, rowMeaning, withZeroFields_of_nonzero i marked nonzero]

/-- Settles O4: the decoder rejects both kinds of word, a reserved opcode by its range and a nonzero field by the row of
its opcode, and the port answers every rejected word with `E_ILLEGAL`. -/
theorem reservedWordsAreIllegal : Obligations.ReservedWordsAreIllegal := by
  refine ⟨fun w reserved => illegal_of_decode_error (decodeFields_of_reserved _ _ _ reserved),
    fun w row known opcode nonzeroField => ?_⟩
  obtain ⟨f, marked, nonzero⟩ : ∃ f ∈ markedFields row (aField w) (bField w) (cField w), f ≠ 0#8 := by
    rcases nonzeroField with ⟨mark, nonzero⟩ | ⟨mark, nonzero⟩ | ⟨mark, nonzero⟩
    · exact ⟨aField w, mem_markedFields.mpr (.inl ⟨mark, rfl⟩), nonzero⟩
    · exact ⟨bField w, mem_markedFields.mpr (.inr (.inl ⟨mark, rfl⟩)), nonzero⟩
    · exact ⟨cField w, mem_markedFields.mpr (.inr (.inr ⟨mark, rfl⟩)), nonzero⟩
  exact illegal_of_decode_error (decode_of_nonzero_marked known opcode marked nonzero)

end Sys2Proof.Proofs.Encoding

namespace Sys2Proof.Proofs.Stepping

open Sys2Proof Sys2Proof.Machine

/-! ### The Enigma bank's step (R145) -/

theorem advance_letter_toNat (v : BitVec 5) : (advance 26 v).toNat = (v.toNat + 1) % 26 :=
  advance_toNat v (by decide) (by decide)

/-- Slot 1 after the first carry test of R145, which reads slot 0 after its move. -/
def middleAfterCarry (par : Parameters) (r : EnigmaRegs) : BitVec 5 :=
  if (advance 26 r.ep[0]).toNat = (enigmaNotch par r.ewid[0]).val then advance 26 r.ep[1] else r.ep[1]

theorem middleAfterCarry_toNat (par : Parameters) (r : EnigmaRegs) :
    (middleAfterCarry par r).toNat =
      if (r.ep[0].toNat + 1) % 26 = (enigmaNotch par r.ewid[0]).val then (r.ep[1].toNat + 1) % 26
      else r.ep[1].toNat := by
  rw [middleAfterCarry, apply_ite BitVec.toNat, advance_letter_toNat, advance_letter_toNat]

/-- The second carry test of R145 reads slot 1 after the first carry; the carry moves slots 1 and 2 together. -/
theorem stepEnigma_of_carry {par : Parameters} {r : EnigmaRegs}
    (carry : (middleAfterCarry par r).toNat = (enigmaNotch par r.ewid[1]).val) :
    stepEnigma par r = #v[advance 26 r.ep[0], advance 26 (middleAfterCarry par r), advance 26 r.ep[2]] :=
  if_pos carry

theorem stepEnigma_of_no_carry {par : Parameters} {r : EnigmaRegs}
    (noCarry : (middleAfterCarry par r).toNat ≠ (enigmaNotch par r.ewid[1]).val) :
    stepEnigma par r = #v[advance 26 r.ep[0], middleAfterCarry par r, r.ep[2]] :=
  if_neg noCarry

/-- A sound run's rotor lies inside the catalogue, so the notch read is the catalogue's own entry (R8, R39). -/
theorem enigmaNotch_of_sound {s : State} (sound : s.Sound) (running : s.mode = .enigma) (k : Fin 3) :
    s.par.eNotch[s.eng.ewid[k].toNat]? = some (enigmaNotch s.par s.eng.ewid[k]) := by
  obtain ⟨enigmaSound, -, -⟩ := sound
  obtain ⟨inRange, -, -⟩ := enigmaSound running
  exact getElem?_floorMod s.par.eNotch (inRange k).1

/-- Settles O35, by cases on the second carry test; the first one's result is `middleAfterCarry`. -/
theorem enigmaStepComputes : Obligations.EnigmaStepComputes := by
  refine ⟨fun par r => ?_, fun _ sound running k => enigmaNotch_of_sound sound running k⟩
  intro n0 n1 e0 e1 q
  have middle : (middleAfterCarry par r).toNat = e1 := middleAfterCarry_toNat par r
  by_cases carry : e1 = n1
  · have stepped : q = _ := stepEnigma_of_carry (middle.trans carry)
    rw [stepped, if_pos carry, if_pos carry, ← middle]
    exact ⟨advance_letter_toNat _, advance_letter_toNat _, advance_letter_toNat _⟩
  · have stepped : q = _ := stepEnigma_of_no_carry (middle.trans_ne carry)
    rw [stepped, if_neg carry, if_neg carry]
    exact ⟨advance_letter_toNat _, middle, rfl⟩

end Sys2Proof.Proofs.Stepping

namespace Sys2Proof.Proofs.Commands

open Sys2Proof Sys2Proof.Machine Sys2Proof.Claims

/-! ### Key writes of every machine (R89, R107, R108) -/

/-- A word of a row of R105 with a nonzero value in a field the row marks "0" is no command (R108). -/
theorem illegal_of_nonzero_marked {w : Word32} {row : Byte × Bool × Bool × Bool} {f : Byte} (known : row ∈ mustBeZero)
    (opcode : opField w = row.1) (marked : f ∈ Encoding.markedFields row (aField w) (bField w) (cField w))
    (nonzero : f ≠ 0#8) : Illegal w :=
  Encoding.illegal_of_decode_error (Encoding.decode_of_nonzero_marked known opcode marked nonzero)

/-- A command that is one `writeKey` of one register of a bank, with the bank's last slot as its selector bound, meets the
whole of `WritesKeyBank`. -/
theorem writesKeyBank_of_writeKey {last : Nat} {op : Byte} {command : Byte → Byte → Instr}
    {bank : KeyRegs → Vector Byte (last + 1)} {withBank : KeyRegs → Vector Byte (last + 1) → KeyRegs}
    (word : ∀ slot value, encode (command slot value) = packWord op 0#8 slot value)
    (known : (op, true, false, false) ∈ mustBeZero)
    (meaning : ∀ s slot value, exec (command slot value) s =
      writeKey s (slot.toNat ≤ last) (withBank s.keys ((bank s.keys).setIfInBounds slot.toNat value))) :
    WritesKeyBank op command bank withBank := by
  refine ⟨word, fun w opcode nonzero => illegal_of_nonzero_marked known opcode List.mem_cons_self nonzero,
    fun s slot value => ⟨fun outside => ?_, fun inside running => ?_, fun inside idle => ?_⟩⟩
  · rw [AnswersOnly, meaning, decide_eq_false (Nat.not_le.mpr outside)]
    exact writeKey_badSlot
  · rw [AnswersOnly, meaning, decide_eq_true (Nat.le_of_lt_succ inside)]
    exact writeKey_busy running
  · refine ⟨(bank s.keys).setIfInBounds slot.toNat value, ?_, fun k => ?_⟩
    · rw [meaning, decide_eq_true (Nat.le_of_lt_succ inside)]
      exact writeKey_done idle
    · simp only [Fin.getElem_fin, Vector.getElem_setIfInBounds, eq_comm]

/-! ### The common checks of `START` (R302) -/

theorem execStart_badSlot {machine dir : Byte} (outside : 2 < machine.toNat ∨ 1 < dir.toNat) (s : State) :
    execStart machine dir s = .next { s with rsp := 0x02000000#32 } :=
  if_pos outside

theorem execStart_busy {machine dir : Byte} {s : State} (machineOk : machine.toNat ≤ 2) (dirOk : dir.toNat ≤ 1)
    (running : s.mode ≠ .idle) : execStart machine dir s = .next { s with rsp := 0x03000000#32 } := by
  rw [execStart, if_neg (by omega), if_pos running]
  rfl

/-- The common checks come first whichever machine `START` names (R302). -/
theorem commonChecksFirst {machine : Byte} (machineOk : machine.toNat ≤ 2) : CommonChecksFirst machine :=
  have known : (0x02#8, false, false, true) ∈ mustBeZero := by decide
  ⟨fun _ opcode nonzero => illegal_of_nonzero_marked known opcode List.mem_cons_self nonzero,
    fun s _ => ⟨fun outside => execStart_badSlot (.inr outside) s, execStart_busy machineOk⟩⟩

end Sys2Proof.Proofs.Commands

namespace Sys2Proof.Proofs.Enigma

open Sys2Proof Sys2Proof.Machine Sys2Proof.Claims Sys2Proof.Proofs.Commands

/-! ### Key writes (R180–R184) -/

/-- Settles O12: each of the three commands is one `writeKey` of its bank. -/
theorem enigmaSlotKeyWrites : Obligations.EnigmaSlotKeyWrites :=
  ⟨writesKeyBank_of_writeKey (last := 2) (fun _ _ => rfl) (by decide) fun _ _ _ => rfl,
    writesKeyBank_of_writeKey (last := 2) (fun _ _ => rfl) (by decide) fun _ _ _ => rfl,
    writesKeyBank_of_writeKey (last := 2) (fun _ _ => rfl) (by decide) fun _ _ _ => rfl⟩

/-- Settles O13: `ENG.REFL` is one `writeKey` with no selector to check. -/
theorem enigmaReflectorWrite : Obligations.EnigmaReflectorWrite := by
  refine ⟨fun _ => rfl, fun w opcode nonzeroField => ?_, fun s code => ⟨writeKey_busy, writeKey_done⟩⟩
  have known : (0x11#8, true, true, false) ∈ mustBeZero := by decide
  rcases nonzeroField with nonzero | nonzero
  · exact illegal_of_nonzero_marked known opcode List.mem_cons_self nonzero
  · exact illegal_of_nonzero_marked known opcode (List.mem_cons_of_mem _ List.mem_cons_self) nonzero

/-- `ENG.PLUG` as a key write, with its selector check evaluated (R184). -/
theorem exec_engPlug {string index letter : Byte} {inRange : Bool} (s : State)
    (check : (string.toNat ≤ 1 && index.toNat ≤ 9 : Bool) = inRange) :
    exec (.engPlug string index letter) s =
      writeKey s inRange { s.keys with eplug := setPlugKey s.keys.eplug string.toNat index.toNat letter } :=
  check ▸ rfl

/-- Settles O14, by the outcomes of the two checks; `setPlugKey` is the write. -/
theorem enigmaPlugWrite : Obligations.EnigmaPlugWrite := by
  refine ⟨fun _ _ _ => rfl, fun s string index letter => ⟨fun outside => ?_, fun stringOk indexOk running => ?_,
    fun stringOk indexOk idle => ⟨_, ?_, getElem_setPlugKey s.keys.eplug string.toNat index.toNat letter⟩⟩⟩
  · have check : (string.toNat ≤ 1 && index.toNat ≤ 9 : Bool) = false := by
      simp only [Bool.and_eq_false_iff, decide_eq_false_iff_not, Nat.not_le, outside]
    rw [AnswersOnly, exec_engPlug s check]
    exact writeKey_badSlot
  · rw [AnswersOnly, exec_engPlug s (inRange := true) (by simp [stringOk, indexOk])]
    exact writeKey_busy running
  · rw [exec_engPlug s (inRange := true) (by simp [stringOk, indexOk])]
    exact writeKey_done idle

/-! ### `START ENIGMA` (R190) -/

/-- With the common checks passed, `START ENIGMA` is the machine's own checks and its setup. -/
theorem execStart_enigma {dir : Byte} {s : State} (dirOk : dir.toNat ≤ 1) (idle : s.mode = .idle) :
    execStart 0#8 dir s =
      startRun s (enigmaChecks s.par s.keys) { s with mode := .enigma, eng := enigmaSetup s.keys } := by
  rw [execStart, if_neg (by simpa using dirOk), if_neg (not_not_intro idle)]
  rfl

theorem plugConflict_iff {keys : KeyRegs} :
    (!decide (plugLetters keys).Nodup) = true ↔
      ∃ (k k' : Fin 2) (i i' : Fin 10), (k ≠ k' ∨ i ≠ i') ∧ keys.eplug[k][i] = keys.eplug[k'][i'] := by
  simp only [Bool.not_eq_true', decide_eq_false_iff_not, plugLetters_nodup_iff, ne_eq, not_forall, not_not, exists_prop]

/-- The verdict of R190 is the first failing check of the model, as its response word: the five checks of `E_MISSING_KEY`
and the three of `E_BAD_LETTER` stand together in the verdict, one by one in the model. -/
theorem enigmaVerdict_eq (par : Parameters) (keys : KeyRegs) :
    enigmaVerdict par keys = (firstFailure (enigmaChecks par keys)).map (responseWord · 0#16) := by
  simp only [enigmaVerdict, ite_or, enigmaChecks, firstFailure, anyKey_iff, any_plugLetters_iff, isUnset_iff,
    outOfRange_iff, plugConflict_iff, apply_ite (Option.map (responseWord · 0#16))]
  rfl

/-- Settles O21: with the common checks passed, the answer is the first failing check, which is the verdict of R190. -/
theorem startEnigmaValidates : Obligations.StartEnigmaValidates := by
  refine ⟨commonChecksFirst (by decide), fun s dir rsp dirOk idle verdict => ?_⟩
  rw [enigmaVerdict_eq, Option.map_eq_some_iff] at verdict
  obtain ⟨code, fails, rfl⟩ := verdict
  exact (execStart_enigma dirOk idle).trans (startRun_refused fails)

/-! ### One symbol (R193) -/

/-- In a sound run the catalogue entries and the plug images are those the registers name (R8, R39, R147). -/
theorem enigmaLookups_of_sound {s : State} (sound : s.Sound) (running : s.mode = .enigma) :
    (∀ k : Fin 3, s.par.eWiring[s.eng.ewid[k].toNat]? = some (enigmaWiring s.par s.eng.ewid[k])) ∧
    s.par.eRefl[s.eng.erid.toNat]? = some (enigmaReflector s.par s.eng.erid) ∧
    ∀ l : Letter, (plugPass s.eng l).val = s.eng.plug[l].toNat := by
  obtain ⟨enigmaSound, -, -⟩ := sound
  obtain ⟨bankInRange, reflectorInRange, plugInRange⟩ := enigmaSound running
  refine ⟨fun k => getElem?_floorMod s.par.eWiring (bankInRange k).1, ?_, fun l => ?_⟩
  · rw [enigmaReflector, List.getD_eq_getElem _ _ reflectorInRange, List.getElem?_eq_getElem reflectorInRange]
  · rw [plugPass, letterOf_val, Nat.mod_eq_of_lt (plugInRange l).1]

/-- Settles O28: the symbol's steps are those of `enigmaSymbol`, and soundness fixes the lookups. -/
theorem enigmaSymbol : Obligations.EnigmaSymbol := by
  refine ⟨fun s x running => ?_, fun _ => enigmaLookups_of_sound⟩
  have letter : (BitVec.ofNat 8 x.val).toNat ≤ 25 := by
    rw [BitVec.toNat_ofNat]
    omega
  refine (execSymbol_enigma running letter).trans ?_
  rw [letterOf_ofNat]
  rfl

end Sys2Proof.Proofs.Enigma

namespace Sys2Proof.Proofs.M209

open Sys2Proof Sys2Proof.Machine Sys2Proof.Claims Sys2Proof.Proofs.Commands

/-! ### Key writes (R220–R222) -/

/-- Settles O15: `M209.KEY` is one `writeKey` of the wheel-key bank. -/
theorem m209WheelKeyWrite : Obligations.M209WheelKeyWrite :=
  writesKeyBank_of_writeKey (last := 5) (fun _ _ => rfl) (by decide) fun _ _ _ => rfl

section PinWrite

variable {s : State} {wheel pin bit : Byte}

/-- A wheel or a pin that does not exist comes first (R221, R343). -/
theorem execM209Pin_badSlot (outside : 5 < wheel.toNat ∨ wheelLength wheel.toNat ≤ pin.toNat) :
    execM209Pin wheel pin bit s = .next { s with rsp := 0x02000000#32 } :=
  if_pos outside

variable (wheelOk : wheel.toNat ≤ 5) (pinOk : pin.toNat < wheelLength wheel.toNat)
include wheelOk pinOk

/-- With the selectors in range, `M209.PIN` is the mode check, the bit check and the write (R221). -/
theorem execM209Pin_of_selectors : execM209Pin wheel pin bit s =
    if s.mode ≠ .idle then raise s .busy
    else if 1 < bit.toNat then raise s .badPin
    else respond (s.withKeys { s.keys with
      mpin := setPin s.keys.mpin wheel.toNat pin.toNat (bit == 1#8) }) 0#16 :=
  if_neg (by omega)

theorem execM209Pin_busy (running : s.mode ≠ .idle) :
    execM209Pin wheel pin bit s = .next { s with rsp := 0x03000000#32 } :=
  (execM209Pin_of_selectors wheelOk pinOk).trans (if_pos running)

theorem execM209Pin_badPin (idle : s.mode = .idle) (noBit : 1 < bit.toNat) :
    execM209Pin wheel pin bit s = .next { s with rsp := 0x0D000000#32 } := by
  rw [execM209Pin_of_selectors wheelOk pinOk, if_neg (not_not_intro idle), if_pos noBit]
  rfl

theorem execM209Pin_done (idle : s.mode = .idle) (bitOk : bit.toNat ≤ 1) :
    execM209Pin wheel pin bit s = .next { s with
      keys := { s.keys with mpin := setPin s.keys.mpin wheel.toNat pin.toNat (bit == 1#8) }
      rsp := 0#32 } := by
  rw [execM209Pin_of_selectors wheelOk pinOk, if_neg (not_not_intro idle), if_neg (Nat.not_lt.mpr bitOk)]
  rfl

end PinWrite

theorem byte_beq_one (bit : Byte) : (bit == 1#8) = decide (bit.toNat = 1) := by
  rw [Bool.eq_iff_iff, beq_iff_eq, decide_eq_true_iff, ← BitVec.toNat_inj]
  rfl

/-- Settles O16: one lemma per branch of `M209.PIN`, and `setPin` is the write. -/
theorem m209PinWrite : Obligations.M209PinWrite := by
  refine ⟨fun _ _ _ => rfl, fun s wheel pin bit => ⟨execM209Pin_badSlot, execM209Pin_busy, execM209Pin_badPin,
    fun wheelOk pinOk idle bitOk => ⟨_, execM209Pin_done wheelOk pinOk idle bitOk, fun w i => ?_⟩⟩⟩
  rw [pinAt_setPin s.keys.mpin wheel.toNat pin.toNat w i (bit == 1#8) pinOk, byte_beq_one]

/-- `M209.LUG` as a key write, with its selector check evaluated (R222). -/
theorem exec_m209Lug {regA bar regB : Byte} {inRange : Bool} (s : State) (check : decide (bar.toNat ≤ 26) = inRange) :
    exec (.m209Lug regA bar regB) s = writeKey s inRange { s.keys with
      mluga := s.keys.mluga.setIfInBounds bar.toNat regA
      mlugb := s.keys.mlugb.setIfInBounds bar.toNat regB } :=
  check ▸ rfl

theorem getElem_setIfInBounds_eq_ite {n : Nat} (bank : Vector Byte n) (slot : Nat) (value : Byte) (k : Fin n) :
    (bank.setIfInBounds slot value)[k] = if k.val = slot then value else bank[k] := by
  simp only [Fin.getElem_fin, Vector.getElem_setIfInBounds, eq_comm]

/-- Settles O17, by the outcomes of the two checks; each bank is written at the bar's index. -/
theorem m209LugWrite : Obligations.M209LugWrite := by
  refine ⟨fun _ _ _ => rfl, fun s regA bar regB => ⟨fun outside => ?_, fun inside running => ?_,
    fun inside idle => ⟨_, _, ?_, fun k => ⟨getElem_setIfInBounds_eq_ite s.keys.mluga bar.toNat regA k,
      getElem_setIfInBounds_eq_ite s.keys.mlugb bar.toNat regB k⟩⟩⟩⟩
  · rw [AnswersOnly, exec_m209Lug s (decide_eq_false (Nat.not_le.mpr outside))]
    exact writeKey_badSlot
  · rw [AnswersOnly, exec_m209Lug s (decide_eq_true inside)]
    exact writeKey_busy running
  · rw [exec_m209Lug s (decide_eq_true inside)]
    exact writeKey_done idle

/-! ### `START M209` (R230) -/

/-- With the common checks passed, `START M209` is the machine's own checks and its setup. -/
theorem execStart_m209 {dir : Byte} {s : State} (dirOk : dir.toNat ≤ 1) (idle : s.mode = .idle) :
    execStart 1#8 dir s =
      startRun s (m209Checks s.par s.keys) { s with mode := .m209, m209 := m209Setup s.par s.keys } := by
  rw [execStart, if_neg (by simpa using dirOk), if_neg (not_not_intro idle)]
  rfl

/-- For a key that is a letter, the reduction in `letterOf` is none, and `notOnWheel` is the check of R230. -/
theorem notOnWheel_iff {par : Parameters} {keys : KeyRegs} {w : Fin 6} (letter : keys.mkey[w].toNat < 26) :
    notOnWheel par keys w = true ↔ ∀ l ∈ par.mAlpha[w], l.val ≠ keys.mkey[w].toNat := by
  have sameLetter (l : Letter) : l = letterOf keys.mkey[w] ↔ l.val = keys.mkey[w].toNat := by
    rw [Fin.ext_iff, letterOf_val, Nat.mod_eq_of_lt letter]
  simp only [notOnWheel, Bool.not_eq_true', List.contains_eq_mem, decide_eq_false_iff_not, ne_eq, ← sameLetter]
  exact ⟨fun absent l on same => absent (same ▸ on), fun none on => none _ on rfl⟩

theorem any_notOnWheel_iff {par : Parameters} {keys : KeyRegs} (letters : ¬ ∃ w : Fin 6, 26 ≤ keys.mkey[w].toNat) :
    (List.finRange 6).any (notOnWheel par keys) = true ↔
      ∃ w : Fin 6, ∀ l ∈ par.mAlpha[w], l.val ≠ keys.mkey[w].toNat := by
  simp only [List.any_eq_true, List.mem_finRange, true_and]
  exact exists_congr fun w => notOnWheel_iff (by simpa using not_exists.mp letters w)

/-- The verdict of R230 is the first failing check of the model, as its response word. The wheel-key check agrees only for
keys that are letters, which the check before it secures; the two lug banks are one check in the verdict. -/
theorem m209Verdict_eq (par : Parameters) (keys : KeyRegs) :
    m209Verdict par keys = (firstFailure (m209Checks par keys)).map (responseWord · 0#16) := by
  simp only [m209Verdict, m209Checks, firstFailure, anyKey_iff, isUnset_iff, outOfRange_iff, exists_or, ite_or,
    apply_ite (Option.map (responseWord · 0#16))]
  refine if_congr Iff.rfl rfl (ite_congr rfl (fun _ => rfl) fun letters => ?_)
  exact if_congr (any_notOnWheel_iff letters).symm rfl rfl

/-- Settles O23: with the common checks passed, the answer is the first failing check, which is the verdict of R230. -/
theorem startM209Validates : Obligations.StartM209Validates := by
  refine ⟨commonChecksFirst (by decide), fun s dir rsp dirOk idle verdict => ?_⟩
  rw [m209Verdict_eq, Option.map_eq_some_iff] at verdict
  obtain ⟨code, fails, rfl⟩ := verdict
  exact (execStart_m209 dirOk idle).trans (startRun_refused fails)

/-! ### One symbol (R233) -/

theorem pinAt_of_no_wheel {bank : PinBank} {wheel : Nat} (pin : Nat) (outside : 6 ≤ wheel) :
    pinAt bank wheel pin = false := by
  obtain ⟨beyond, rfl⟩ := Nat.exists_eq_add_of_le' outside
  rfl

theorem getD_eq_getElem {α : Type} {n : Nat} (v : Vector α n) (k : Fin n) (d : α) : v.getD k d = v[k] := by
  simp [Vector.getD]

/-- A register of a lug bar is active when it names a wheel w, as w + 1, whose active pin is 1; 0 is no connection, and 7
names no wheel. -/
theorem registerActive_iff {r : M209Regs} {reg : BitVec 3} :
    registerActive r reg = true ↔
      ∃ w : Fin 6, reg.toNat = w.val + 1 ∧ pinAt r.ps w.val r.act[w].toNat = true := by
  simp only [registerActive, Bool.and_eq_true, bne_iff_ne, ne_eq, ← BitVec.toNat_inj]
  constructor
  · rintro ⟨connected, active⟩
    have inside : reg.toNat - 1 < 6 := by
      by_contra outside
      rw [pinAt_of_no_wheel _ (Nat.not_lt.mp outside)] at active
      exact Bool.false_ne_true active
    exact ⟨⟨reg.toNat - 1, inside⟩, (Nat.sub_add_cancel (Nat.pos_of_ne_zero connected)).symm,
      getD_eq_getElem r.act ⟨_, inside⟩ 0#5 ▸ active⟩
  · rintro ⟨w, named, active⟩
    rw [named, Nat.add_sub_cancel, getD_eq_getElem]
    exact ⟨Nat.succ_ne_zero _, active⟩

theorem barActive_iff {r : M209Regs} {b : Fin 27} :
    barActive r b = true ↔ ∃ w : Fin 6,
      (r.la[b].toNat = w.val + 1 ∨ r.lb[b].toNat = w.val + 1) ∧ pinAt r.ps w.val r.act[w].toNat = true := by
  simp only [barActive, Bool.or_eq_true, registerActive_iff, or_and_right, exists_or]

/-- K is the number of the bars that contribute, as a cardinality (R233). -/
theorem keystream_eq_card (r : M209Regs) :
    keystream r = (Finset.univ.filter fun b : Fin 27 => ∃ w : Fin 6,
      (r.la[b].toNat = w.val + 1 ∨ r.lb[b].toNat = w.val + 1) ∧ pinAt r.ps w.val r.act[w].toNat = true).card := by
  rw [keystream, List.countP_eq_length_filter,
    ← List.toFinset_card_of_nodup ((List.nodup_finRange 27).filter (barActive r))]
  congr 1
  ext b
  simp [barActive_iff]

theorem getElem_stepM209_toNat (act : Vector (BitVec 5) 6) (w : Fin 6) :
    (stepM209 act)[w].toNat = (act[w].toNat + 1) % wheelLength w := by
  obtain ⟨positive, fits⟩ := wheelLength_bounds w
  rw [stepM209, Fin.getElem_fin, Vector.getElem_ofFn]
  exact advance_toNat act[w] (fits.trans (by decide)) positive

/-- Settles O29: the symbol is `m209Symbol`, whose K is the count of the contributing bars and whose counters are those of
`stepM209`. -/
theorem m209Symbol : Obligations.M209Symbol := by
  intro s p running r k
  have letter : (BitVec.ofNat 8 p.val).toNat ≤ 25 := by
    rw [BitVec.toNat_ofNat]
    omega
  have count : keystream r = k := keystream_eq_card r
  refine ⟨stepM209 r.act, (execSymbol_m209 running letter).trans ?_, getElem_stepM209_toNat r.act⟩
  rw [letterOf_ofNat, ← count]
  rfl

end Sys2Proof.Proofs.M209

namespace Sys2Proof.Proofs.Sigaba

open Sys2Proof Sys2Proof.Machine Sys2Proof.Claims Sys2Proof.Proofs.Commands

/-! ### Key writes (R260–R265) -/

/-- Settles O18: each of the six commands is one `writeKey` of its bank. -/
theorem sigabaKeyWrites : Obligations.SigabaKeyWrites := by
  refine ⟨?_, ?_, ?_, ?_, ?_, ?_⟩ <;>
    exact writesKeyBank_of_writeKey (last := 4) (fun _ _ => rfl) (by decide) fun _ _ _ => rfl

/-! ### `START SIGABA` (R270) -/

/-- With the common checks passed, `START SIGABA` is the machine's own checks and its setup. -/
theorem execStart_sigaba {dir : Byte} {s : State} (dirOk : dir.toNat ≤ 1) (idle : s.mode = .idle) :
    execStart 2#8 dir s = startRun s (sigabaChecks s.keys)
      { s with mode := if dir = 0#8 then .sigabaEnc else .sigabaDec, sig := sigabaSetup s.keys } := by
  rw [execStart, if_neg (by simpa using dirOk), if_neg (not_not_intro idle)]
  rfl

/-- The verdict of R270 is the first failing check of the model, as its response word: the verdict takes the banks of
one code slot by slot, the model takes them bank by bank. -/
theorem sigabaVerdict_eq (keys : KeyRegs) :
    sigabaVerdict keys = (firstFailure (sigabaChecks keys)).map (responseWord · 0#16) := by
  simp only [sigabaVerdict, exists_or, ite_or, sigabaChecks, firstFailure, anyKey_iff, isUnset_iff, outOfRange_iff,
    apply_ite (Option.map (responseWord · 0#16))]
  rfl

/-- Settles O25: with the common checks passed, the answer is the first failing check, which is the verdict of R270. -/
theorem startSigabaValidates : Obligations.StartSigabaValidates := by
  refine ⟨commonChecksFirst (by decide), fun s dir rsp dirOk idle verdict => ?_⟩
  rw [sigabaVerdict_eq, Option.map_eq_some_iff] at verdict
  obtain ⟨code, fails, rfl⟩ := verdict
  exact (execStart_sigaba dirOk idle).trans (startRun_refused fails)

/-! ### One symbol (R280) -/

/-- Steps 2, 4 and 5 for one marker: the maze, its digit class, the index bank (R283–R285). Step 3, the control
advance, comes after the maze and changes no register that the index bank reads. -/
def markerDigit (par : Parameters) (r : SigabaRegs) (marker : Letter) : Digit :=
  [0, 1, 2, 3, 4].foldl (indexRotor par r)
    (digitClass par ([0, 1, 2, 3, 4].foldl (controlRotor par r) marker))

/-- The digit classes of four maze outputs, written out (R284). -/
theorem digitClasses_eq (par : Parameters) (a b c d : Letter) :
    (Vector.ofFn fun m : Fin 4 => digitClass par #v[a, b, c, d][m]) =
      #v[digitClass par a, digitClass par b, digitClass par c, digitClass par d] := by
  apply Vector.ext
  intro m below
  rw [Vector.getElem_ofFn]
  match m, below with
  | 0, _ | 1, _ | 2, _ | 3, _ => rfl

/-- The advance of one symbol: the control bank moves by its cadence, the cipher bank by the digits of the four markers
(R280, steps 2 to 6). -/
theorem sigabaAdvance_eq (par : Parameters) (r : SigabaRegs) :
    sigabaAdvance par r =
      { r with
        cp := (stepSigabaCipher r.cp
          #v[markerDigit par r 5, markerDigit par r 6, markerDigit par r 7, markerDigit par r 8]).1
        kp := (stepSigabaControl r.kp r.cad).1
        cad := (stepSigabaControl r.kp r.cad).2
        adv := (stepSigabaCipher r.cp
          #v[markerDigit par r 5, markerDigit par r 6, markerDigit par r 7, markerDigit par r 8]).2 } := by
  simp only [sigabaAdvance, mazeOutputs_eq, digitClasses_eq, indexOutputs_eq]
  rfl

/-- The bank is forward exactly for the encode direction (R281). -/
theorem cipherBank_of_mode (par : Parameters) (r : SigabaRegs) {mode : Mode} (running : mode.isSigaba = true)
    (x : Letter) :
    cipherBank par r (mode == .sigabaDec) x =
      if mode = .sigabaEnc then [0, 1, 2, 3, 4].foldl (cipherRotor par r false) x
      else [4, 3, 2, 1, 0].foldl (cipherRotor par r true) x := by
  cases mode with
  | sigabaEnc | sigabaDec => rfl
  | idle | enigma | m209 => cases running

/-- In a sound run the catalogue entries are those the registers name (R8, R41). -/
theorem sigabaLookups_of_sound {s : State} (sound : s.Sound) (running : s.mode.isSigaba = true) (j : Fin 5) :
    s.par.sWiring[s.sig.cid[j].toNat]? = some (largeWiring s.par s.sig.cid[j]) ∧
    s.par.sWiring[s.sig.kid[j].toNat]? = some (largeWiring s.par s.sig.kid[j]) ∧
    s.par.sIWiring[s.sig.xid[j].toNat]? = some (indexWiring s.par s.sig.xid[j]) := by
  obtain ⟨-, -, sigabaSound⟩ := sound
  obtain ⟨rotorsInRange, -, -⟩ := sigabaSound running
  obtain ⟨cipherInRange, controlInRange, indexInRange⟩ := rotorsInRange j
  exact ⟨getElem?_floorMod s.par.sWiring cipherInRange, getElem?_floorMod s.par.sWiring controlInRange,
    getElem?_floorMod s.par.sIWiring indexInRange⟩

/-- Settles O30: the output is that of the cipher bank in the run's direction, the registers are those of
`sigabaAdvance`, and soundness fixes the lookups. -/
theorem sigabaSymbol : Obligations.SigabaSymbol := by
  refine ⟨fun s x running => ?_, fun _ => sigabaLookups_of_sound⟩
  have letter : (BitVec.ofNat 8 x.val).toNat ≤ 25 := by
    rw [BitVec.toNat_ofNat]
    omega
  refine (execSymbol_sigaba running letter).trans ?_
  rw [letterOf_ofNat, cipherBank_of_mode _ _ running, sigabaAdvance_eq]
  rfl

end Sys2Proof.Proofs.Sigaba

namespace Sys2Proof.Proofs.Orchestrator

open Sys2Proof Sys2Proof.Machine Sys2Proof.Claims Sys2Proof.Proofs.Commands

/-! ### `NOP` and the fields of the commands without operands (R108, R300, R303) -/

/-- An opcode that takes no operand admits no nonzero field (R105, R108). -/
theorem illegal_of_nonzero_field {op : Byte} (known : (op, true, true, true) ∈ mustBeZero) (w : Word32)
    (opcode : opField w = op) (nonzeroField : aField w ≠ 0#8 ∨ bField w ≠ 0#8 ∨ cField w ≠ 0#8) : Illegal w := by
  rcases nonzeroField with nonzero | nonzero | nonzero
  · exact illegal_of_nonzero_marked known opcode (Encoding.mem_markedFields.mpr (.inl ⟨rfl, rfl⟩)) nonzero
  · exact illegal_of_nonzero_marked known opcode (Encoding.mem_markedFields.mpr (.inr (.inl ⟨rfl, rfl⟩))) nonzero
  · exact illegal_of_nonzero_marked known opcode (Encoding.mem_markedFields.mpr (.inr (.inr ⟨rfl, rfl⟩))) nonzero

/-- Settles O19: `NOP` is the response 0 in every mode, and the row of its opcode marks all three fields. -/
theorem nopDoesNothing : Obligations.NopDoesNothing :=
  ⟨rfl, fun _ => rfl, illegal_of_nonzero_field (by decide)⟩

/-! ### `READ` (R305) -/

/-- The model's table of slots is that of R106. -/
theorem readSlots_eq (group : Nat) : readSlots group = readGroupSlots group := by
  unfold readSlots readGroupSlots
  rfl

section Read

variable {s : State} {group slot : Byte}

/-- A group or slot that R106 does not list comes first (R305, R343). -/
theorem execRead_badSlot (unlisted : readGroupSlots group.toNat ≤ slot.toNat) :
    execRead group slot s = .next { s with rsp := 0x02000000#32 } := by
  rw [execRead, readSlots_eq, if_pos unlisted]
  rfl

variable (listed : slot.toNat < readGroupSlots group.toNat)
include listed

theorem execRead_notRunning (unreadable : groupReadable group.toNat s.mode = false) :
    execRead group slot s = .next { s with rsp := 0x04000000#32 } := by
  rw [execRead, readSlots_eq, if_neg (Nat.not_le.mpr listed), unreadable]
  rfl

/-- A readable group answers the register named, zero-extended to the whole response (R111, R112). -/
theorem execRead_readable {width : Nat} {register : BitVec width} (fits : width ≤ 16)
    (readable : groupReadable group.toNat s.mode = true)
    (named : readValue s group.toNat slot.toNat = register.setWidth 16) :
    execRead group slot s = .next { s with rsp := register.setWidth 32 } := by
  rw [execRead, readSlots_eq, if_neg (Nat.not_le.mpr listed), if_pos readable, named, respond, State.withResponse,
    responseWord_ok_setWidth fits]

/-- A listed slot of a group that is readable exactly when `running` holds (R106, R305). -/
theorem read_answersOnly {width : Nat} {register : BitVec width} {running : Prop} [Decidable running]
    (fits : width ≤ 16) (readable : groupReadable group.toNat s.mode = true ↔ running)
    (named : readValue s group.toNat slot.toNat = register.setWidth 16) :
    AnswersOnly (.read group slot) s (if running then register.setWidth 32 else 0x04000000#32) := by
  by_cases on : running
  · rw [if_pos on]
    exact execRead_readable listed fits (readable.mpr on) named
  · rw [if_neg on]
    exact execRead_notRunning listed (Bool.eq_false_iff.mpr (mt readable.mp on))

end Read

/-- A group that names a bank of registers answers the register of each of its slots (R106). -/
theorem read_bank_answersOnly {s : State} {group : Byte} {width slots : Nat} {bank : Vector (BitVec width) slots}
    {running : Prop} [Decidable running] (fits : width ≤ 16) (count : readGroupSlots group.toNat = slots)
    (small : slots ≤ 256) (readable : groupReadable group.toNat s.mode = true ↔ running)
    (named : ∀ slot, readValue s group.toNat slot = (bank.getD slot 0#width).setWidth 16) (k : Fin slots) :
    AnswersOnly (.read group (BitVec.ofNat 8 k.val)) s (if running then bank[k].setWidth 32 else 0x04000000#32) := by
  have index : (BitVec.ofNat 8 k.val).toNat = k.val := Nat.mod_eq_of_lt (k.isLt.trans_le small)
  refine read_answersOnly ?_ fits readable ?_
  · rw [index, count]
    exact k.isLt
  · rw [index, named, M209.getD_eq_getElem]

/-- Group 0 is readable in every mode and answers the code of R30. -/
theorem read_mode_answersOnly (s : State) : AnswersOnly (.read 0#8 0#8) s (s.mode.code.setWidth 32) :=
  execRead_readable (by decide) (by decide) rfl rfl

/-- Settles O32: the refusals are one lemma per check, and each group is read by the lemma for a bank or for a single
register, with its readability from R106. -/
theorem readReturnsTheRegister : Obligations.ReadReturnsTheRegister := by
  have known : (0x05#8, false, false, true) ∈ mustBeZero := by decide
  refine ⟨fun _ opcode nonzero => illegal_of_nonzero_marked known opcode List.mem_cons_self nonzero,
    fun s group slot => ⟨execRead_badSlot, ?mode, ?enigmaPositions, ?activePins, ?keystream, ?cipherPositions,
      ?controlPositions, ?indexPositions, ?cadence, ?advance⟩⟩
  case mode =>
    have answer := read_mode_answersOnly s
    cases mode : s.mode <;> rw [mode] at answer <;> exact answer
  case enigmaPositions => exact read_bank_answersOnly (by decide) rfl (by decide) beq_iff_eq fun _ => rfl
  case activePins => exact read_bank_answersOnly (by decide) rfl (by decide) beq_iff_eq fun _ => rfl
  case keystream => exact read_answersOnly (by decide) (by decide) beq_iff_eq rfl
  case cipherPositions => exact read_bank_answersOnly (by decide) rfl (by decide) Iff.rfl fun _ => rfl
  case controlPositions => exact read_bank_answersOnly (by decide) rfl (by decide) Iff.rfl fun _ => rfl
  case indexPositions => exact read_bank_answersOnly (by decide) rfl (by decide) Iff.rfl fun _ => rfl
  case cadence => exact read_answersOnly (by decide) (by decide) Iff.rfl rfl
  case advance => exact read_answersOnly (by decide) (by decide) Iff.rfl rfl

/-! ### `END` (R303) -/

theorem execEndRun_idle {s : State} (idle : s.mode = .idle) : execEndRun s = .next { s with rsp := 0#32 } :=
  if_pos idle

theorem execEndRun_running {s : State} (running : s.mode ≠ .idle) :
    execEndRun s = .next (s.discardRun.withResponse .ok 0#16) :=
  if_neg running

/-- With no run, `MODE` alone is readable (R106). -/
theorem groupReadable_idle {group : Nat} (working : 1 ≤ group) : groupReadable group .idle = false := by
  match group, working with
  | 1, _ | 2, _ | 3, _ | _ + 4, _ => rfl

/-- Settles O27: `END` of a run is `discardRun`, which changes `MODE` and the working registers alone, and in `IDLE` every
group but 0 is unreadable. -/
theorem endEndsTheRun : Obligations.EndEndsTheRun := by
  refine ⟨rfl, illegal_of_nonzero_field (by decide), fun _ => execEndRun_idle, fun _ running => ?_⟩
  exact ⟨_, execEndRun_running running, rfl, rfl, rfl, rfl, rfl, rfl,
    fun _ _ working listed => execRead_notRunning listed (groupReadable_idle working)⟩

end Sys2Proof.Proofs.Orchestrator

namespace Sys2Proof.Proofs.Decoder

open Sys2Proof Sys2Proof.Machine Sys2Proof.Claims

/-! ### The decoder and the encoder undo each other (R100, R105, R110) -/

theorem decode_packWord (op a b c : Byte) : decode (packWord op a b c) = decodeFields op.toNat a b c := by
  rw [decode, opField_packWord, aField_packWord, bField_packWord, cField_packWord]

/-- Settles O2: the word of a command is packed from its row of R105, and the decoder reads the row's fields back. -/
theorem decodeOfEncode : Obligations.DecodeOfEncode := by
  intro i
  cases i <;> exact decode_packWord _ _ _ _

theorem commandStep_encode (i : Instr) (s : State) : commandStep (encode i) s = exec i s :=
  commandStep_of_decode (decodeOfEncode i) s

theorem withZeroFields_eq_ok {fields : List Byte} {i j : Instr} (accepted : withZeroFields fields i = .ok j) :
    i = j ∧ ∀ f ∈ fields, f = 0#8 := by
  unfold withZeroFields at accepted
  split at accepted
  · refine ⟨Except.ok.inj accepted, fun f marked => ?_⟩
    have allZero : ∀ f ∈ fields, (f == 0#8) = true := List.all_eq_true.mp ‹_›
    exact eq_of_beq (allZero f marked)
  · cases accepted

/-- A row of the decoder gives a command only with the row's "0" fields at zero, so the encoder packs the same word. -/
theorem encode_of_decodeFields {op : Nat} {a b c : Byte} {i : Instr} (accepted : decodeFields op a b c = .ok i) :
    encode i = packWord (BitVec.ofNat 8 op) a b c := by
  unfold decodeFields at accepted
  split at accepted
  case h_21 => cases accepted
  case h_11 | h_13 | h_14 => cases accepted; rfl
  all_goals
    obtain ⟨rfl, zero⟩ := withZeroFields_eq_ok accepted
    simp only [List.forall_mem_cons, List.not_mem_nil, false_imp_iff, implies_true, and_true] at zero
    simp only [encode, zero]

/-- Settles O3: the decoder's row gives the encoder's word, and a word is its four fields. -/
theorem encodeOfDecode : Obligations.EncodeOfDecode := by
  intro w i decoded
  rw [encode_of_decodeFields decoded, BitVec.ofNat_toNat, BitVec.setWidth_eq, packWord_fields]

/-- Settles O1: each word is evaluated. -/
theorem tableWordsDecode : Obligations.TableWordsDecode := by
  unfold Obligations.TableWordsDecode
  decide

/-- Settles O5: the lanes are the four fields, which make the word again. -/
theorem byteLanesLittleEndian : Obligations.ByteLanesLittleEndian := by
  intro w
  have remade : wordOfLanes (cField w) (bField w) (aField w) (opField w) = w := packWord_fields w
  exact ⟨rfl, remade, congrArg decode remade⟩

end Sys2Proof.Proofs.Decoder

namespace Sys2Proof.Proofs.Port

open Sys2Proof Sys2Proof.Machine Sys2Proof.Claims

/-! ### The step, the bus and the resets (R82–R85, R354, R370–R371) -/

/-- Settles O6: a step serves the oldest access, and a write of the aligned word at `CORE_BASE` is admitted. -/
theorem stepRunsTheDecodedCommand : Obligations.StepRunsTheDecodedCommand := by
  intro s w rest i decoded
  refine ⟨fun waiting => ?_, fun aligned waiting => ?_⟩
  · rw [step_of_inbox waiting]
    exact commandStep_of_decode decoded _
  · have admitted : accessAdmitted s.par.coreBase s.par.coreBase 4 = true :=
      accessAdmitted_iff.mpr ⟨rfl, aligned, rfl⟩
    rw [step_of_inbox waiting, serve, if_pos admitted]
    exact commandStep_of_decode decoded _

/-- Settles O7: an empty queue gives `takeStep` no access to serve. -/
theorem stepWaitsForTheHost : Obligations.StepWaitsForTheHost := fun _ => step_of_empty

theorem not_accessAdmitted {word addr size : Nat} (refused : size ≠ 4 ∨ addr % 4 ≠ 0 ∨ addr ≠ word) :
    ¬ accessAdmitted word addr size = true := by
  rw [accessAdmitted_iff]
  omega

/-- Settles O8: each access is served by whether `accessAdmitted` holds of it. -/
theorem busAccesses : Obligations.BusAccesses := by
  intro s aligned
  refine ⟨fun data => if_pos (accessAdmitted_iff.mpr ⟨rfl, by omega, rfl⟩),
    if_pos (accessAdmitted_iff.mpr ⟨rfl, by omega, rfl⟩), fun addr size => ⟨fun data refused => ?_, fun refused => ?_⟩⟩
  · exact if_neg (not_accessAdmitted refused)
  · exact if_neg (not_accessAdmitted refused)

/-- Every key register that R78 gives a value takes it (R78). -/
theorem hasResetValues_of_keys {s : State} (idle : s.mode = .idle) (keys : s.keys = KeyRegs.afterReset s.par) :
    HasResetValues s := by
  simp [HasResetValues, keys, KeyRegs.afterReset, idle, unsetKey]

theorem nominalParameters_wellFormed : nominalParameters.WellFormed := by decide +kernel

/-- Whatever the open parameters are, the installed ones are well formed (R9, log 3). -/
theorem installedParameters_wellFormed : installedParameters.WellFormed := by
  unfold installedParameters Parameters.accept
  split
  · assumption
  · exact nominalParameters_wellFormed

/-- Settles O10: both states are `resetWith` of a parameter set, and the installed one is accepted or nominal. -/
theorem resetValues : Obligations.ResetValues :=
  ⟨fun _ => ⟨hasResetValues_of_keys rfl rfl, rfl, rfl⟩, hasResetValues_of_keys rfl rfl, rfl,
    installedParameters_wellFormed⟩

/-- The response `OK` with no data is the word that reset leaves (R78, R111). -/
theorem resetBlock_withResponse (s : State) : s.resetBlock.withResponse .ok 0#16 = s.resetBlock := rfl

/-- Settles O11: both leave `resetBlock`. -/
theorem bothResetsResetTheBlock : Obligations.BothResetsResetTheBlock := fun s =>
  ⟨s.resetBlock, congrArg Host.Outcome.next (resetBlock_withResponse s), rfl, hasResetValues_of_keys rfl rfl, rfl, rfl,
    rfl, rfl, rfl, rfl⟩

end Sys2Proof.Proofs.Port

namespace Sys2Proof.Proofs.Setup

open Sys2Proof Sys2Proof.Machine Sys2Proof.Claims Sys2Proof.Proofs.Commands

/-! ### Key registers that pass the checks of `START` (R190, R230, R270) -/

/-- What the checks of R190 leave: codes of the catalogue, letters, and no plug letter twice. -/
structure EnigmaKeysPass (par : Parameters) (keys : KeyRegs) : Prop where
  rotor (k : Fin 3) : keys.erot[k].toNat < 5
  reflector : keys.eref.toNat < par.eRefl.length
  plugLetter (k : Fin 2) (i : Fin 10) : keys.eplug[k][i].toNat < 26
  plugApart : (plugLetters keys).Nodup

theorem anyKey_eq_false_iff {n : Nat} {bank : Vector Byte n} {bad : Byte → Bool} :
    anyKey bank bad = false ↔ ∀ k : Fin n, bad bank[k] = false := by
  simp only [← Bool.not_eq_true, anyKey_iff, not_exists]

theorem outOfRange_eq_false_iff {size : Nat} {k : Byte} : outOfRange size k = false ↔ k.toNat < size := by
  rw [← Bool.not_eq_true, outOfRange_iff, not_le]

theorem any_plugLetters_eq_false_iff {keys : KeyRegs} {bad : Byte → Bool} :
    (plugLetters keys).any bad = false ↔ ∀ (k : Fin 2) (i : Fin 10), bad keys.eplug[k][i] = false := by
  simp only [← Bool.not_eq_true, any_plugLetters_iff, not_exists]

theorem enigmaKeysPass {par : Parameters} {keys : KeyRegs} (passed : firstFailure (enigmaChecks par keys) = none) :
    EnigmaKeysPass par keys := by
  simp only [firstFailure_eq_none, enigmaChecks, List.forall_mem_cons, anyKey_eq_false_iff,
    any_plugLetters_eq_false_iff, outOfRange_eq_false_iff, Bool.not_eq_false', decide_eq_true_iff] at passed
  obtain ⟨-, -, -, -, -, rotor, reflector, -, -, plugLetter, plugApart, -⟩ := passed
  exact ⟨rotor, reflector, plugLetter, plugApart⟩

/-- What the checks of R230 leave: letters in the wheel key, and lugs that name a wheel or none. -/
structure M209KeysPass (keys : KeyRegs) : Prop where
  letter (w : Fin 6) : keys.mkey[w].toNat < 26
  lugA (b : Fin 27) : keys.mluga[b].toNat < 7
  lugB (b : Fin 27) : keys.mlugb[b].toNat < 7

theorem m209KeysPass {par : Parameters} {keys : KeyRegs} (passed : firstFailure (m209Checks par keys) = none) :
    M209KeysPass keys := by
  simp only [firstFailure_eq_none, m209Checks, List.forall_mem_cons, anyKey_eq_false_iff,
    outOfRange_eq_false_iff] at passed
  obtain ⟨-, letter, -, lugA, lugB, -⟩ := passed
  exact ⟨letter, lugA, lugB⟩

/-- What the checks of R270 leave: codes of the catalogues, letters and digits. -/
structure SigabaKeysPass (keys : KeyRegs) : Prop where
  cipherRotor (j : Fin 5) : keys.scrot[j].toNat < 10
  controlRotor (j : Fin 5) : keys.skrot[j].toNat < 10
  indexRotor (j : Fin 5) : keys.sirot[j].toNat < 5
  indicator (j : Fin 5) : keys.sind[j].toNat < 26
  controlPosition (j : Fin 5) : keys.skpos[j].toNat < 26
  indexPosition (j : Fin 5) : keys.sipos[j].toNat < 10

theorem sigabaKeysPass {keys : KeyRegs} (passed : firstFailure (sigabaChecks keys) = none) : SigabaKeysPass keys := by
  simp only [firstFailure_eq_none, sigabaChecks, List.forall_mem_cons, anyKey_eq_false_iff,
    outOfRange_eq_false_iff] at passed
  obtain ⟨-, -, -, -, -, -, cipher, control, index, indicator, controlPosition, indexPosition, -⟩ := passed
  exact ⟨cipher, control, index, indicator, controlPosition, indexPosition⟩

/-- A code below 2^w is not cut by a register of w bits. -/
theorem toNat_setWidth_of_lt {w bound : Nat} {k : Byte} (inRange : k.toNat < bound) (fits : bound ≤ 2 ^ w) :
    (k.setWidth w).toNat = k.toNat := by
  rw [BitVec.toNat_setWidth, Nat.mod_eq_of_lt (inRange.trans_le fits)]

theorem getElem_ofFn_fin {α : Type} {n : Nat} (f : Fin n → α) (k : Fin n) : (Vector.ofFn f)[k] = f k :=
  Vector.getElem_ofFn k.isLt

/-! ### The plugboard (R191) -/

/-- A pair among pairs of distinct letters exchanges its two letters. -/
theorem getElem_foldl_swapPlug_of_mem {pairs : List (Byte × Byte)} {pair : Byte × Byte} {l m : Letter}
    (apart : (pairs.map Prod.fst ++ pairs.map Prod.snd).Nodup) (mem : pair ∈ pairs)
    (first : pair.1.toNat = l.val) (second : pair.2.toNat = m.val) (plug : Vector (BitVec 5) 26) :
    (pairs.foldl swapPlug plug)[l] = pair.2.setWidth 5 ∧ (pairs.foldl swapPlug plug)[m] = pair.1.setWidth 5 := by
  induction pairs generalizing plug with
  | nil => cases mem
  | cons head tail ih =>
    rw [List.foldl_cons]
    have tailApart : (tail.map Prod.fst ++ tail.map Prod.snd).Nodup :=
      apart.sublist ((List.sublist_cons_self _ _).append (List.sublist_cons_self _ _))
    rcases List.mem_cons.mp mem with rfl | mem
    · simp only [List.map_cons, List.nodup_append, List.nodup_cons, List.mem_cons] at apart
      obtain ⟨⟨firstFresh, -⟩, ⟨secondFresh, -⟩, across⟩ := apart
      have differ : pair.1 ≠ pair.2 := across _ (.inl rfl) _ (.inl rfl)
      have untouched : ∀ q ∈ tail, (q.1 ≠ pair.1 ∧ q.2 ≠ pair.1) ∧ q.1 ≠ pair.2 ∧ q.2 ≠ pair.2 := by
        intro q hq
        have inFirst : q.1 ∈ tail.map Prod.fst := List.mem_map_of_mem hq
        have inSecond : q.2 ∈ tail.map Prod.snd := List.mem_map_of_mem hq
        exact ⟨⟨fun same => firstFresh (same ▸ inFirst), (across _ (.inl rfl) _ (.inr inSecond)).symm⟩,
          across _ (.inr inFirst) _ (.inl rfl), fun same => secondFresh (same ▸ inSecond)⟩
      simp only [← BitVec.toNat_inj, ne_eq, first, second] at differ untouched
      rw [getElem_foldl_swapPlug tail _ l fun q hq => (untouched q hq).1,
        getElem_foldl_swapPlug tail _ m fun q hq => (untouched q hq).2, getElem_swapPlug, getElem_swapPlug,
        if_neg (by omega), if_pos first, if_pos second]
      exact ⟨rfl, rfl⟩
    · exact ih tailApart mem _

/-- The pairs of the plugboard, letter i of string 0 with letter i of string 1 (R191). -/
def plugPairs (keys : KeyRegs) : List (Byte × Byte) := keys.eplug[0].toList.zip keys.eplug[1].toList

theorem plugBoard_eq (keys : KeyRegs) :
    plugBoard keys = (plugPairs keys).foldl swapPlug (Vector.ofFn fun l => letterBits l) := rfl

theorem plugPairs_letters (keys : KeyRegs) :
    (plugPairs keys).map Prod.fst ++ (plugPairs keys).map Prod.snd = plugLetters keys := by
  rw [plugPairs, plugLetters, List.map_fst_zip (by simp), List.map_snd_zip (by simp)]

theorem mem_plugPairs (keys : KeyRegs) (i : Fin 10) :
    (keys.eplug[(0 : Fin 2)][i], keys.eplug[(1 : Fin 2)][i]) ∈ plugPairs keys := by
  rw [plugPairs, List.mem_iff_getElem]
  exact ⟨i.val, by simp, by simp⟩

section PlugBoard

variable {par : Parameters} {keys : KeyRegs}

theorem plugBoard_pair (pass : EnigmaKeysPass par keys) {i : Fin 10} {l m : Letter} (pair : PlugPairIs keys i l m) :
    (plugBoard keys)[l].toNat = m.val ∧ (plugBoard keys)[m].toNat = l.val := by
  obtain ⟨first, second⟩ := pair
  have apart := pass.plugApart
  rw [← plugPairs_letters] at apart
  obtain ⟨atFirst, atSecond⟩ := getElem_foldl_swapPlug_of_mem apart (mem_plugPairs keys i) first second
    (Vector.ofFn fun l => letterBits l)
  rw [plugBoard_eq, atFirst, atSecond, toNat_setWidth_of_lt (pass.plugLetter 1 i) (by decide),
    toNat_setWidth_of_lt (pass.plugLetter 0 i) (by decide)]
  exact ⟨second, first⟩

theorem plugBoard_unplugged {l : Letter} (unplugged : ∀ (k : Fin 2) (i : Fin 10), keys.eplug[k][i].toNat ≠ l.val) :
    (plugBoard keys)[l].toNat = l.val := by
  have letters : ∀ x ∈ plugLetters keys, x.toNat ≠ l.val := by
    intro x mem
    obtain ⟨k, i, rfl⟩ := mem_plugLetters.mp mem
    exact unplugged k i
  have apart : ∀ pair ∈ plugPairs keys, pair.1.toNat ≠ l.val ∧ pair.2.toNat ≠ l.val := by
    rw [← plugPairs_letters] at letters
    exact fun pair mem => ⟨letters _ (List.mem_append_left _ (List.mem_map_of_mem mem)),
      letters _ (List.mem_append_right _ (List.mem_map_of_mem mem))⟩
  rw [plugBoard_eq, getElem_foldl_swapPlug _ _ l apart, getElem_ofFn_fin, letterBits_toNat]

/-- Every letter's image has the letter as its own image: the plugboard is an involution (R79). -/
theorem plugBoard_image (pass : EnigmaKeysPass par keys) (l : Letter) :
    ∃ m : Letter, (plugBoard keys)[l].toNat = m.val ∧ (plugBoard keys)[m].toNat = l.val := by
  by_cases plugged : ∃ (k : Fin 2) (i : Fin 10), keys.eplug[k][i].toNat = l.val
  · obtain ⟨k, i, here⟩ := plugged
    obtain rfl | rfl : k = 0 ∨ k = 1 := by omega
    · exact ⟨⟨_, pass.plugLetter 1 i⟩, plugBoard_pair pass ⟨here, rfl⟩⟩
    · exact ⟨⟨_, pass.plugLetter 0 i⟩, (plugBoard_pair pass ⟨rfl, here⟩).symm⟩
  · have image := plugBoard_unplugged (l := l) fun k i here => plugged ⟨k, i, here⟩
    exact ⟨l, image, image⟩

end PlugBoard

/-! ### The working registers `START` builds (R191, R231, R271) -/

/-- The bank is the key order reversed (R191). -/
theorem enigmaSetup_ewid_toNat {par : Parameters} {keys : KeyRegs} (pass : EnigmaKeysPass par keys) (k : Fin 3) :
    (enigmaSetup keys).ewid[k].toNat = keys.erot[2 - k.val].toNat := by
  rw [enigmaSetup, getElem_ofFn_fin]
  exact toNat_setWidth_of_lt (pass.rotor ⟨2 - k.val, by omega⟩) (by decide)

/-- Settles O22: with the checks passed `START ENIGMA` is `enigmaSetup`, whose plugboard exchanges the letters of each
pair. -/
theorem startEnigmaSetsUp : Obligations.StartEnigmaSetsUp := by
  intro s dir dirOk idle verdict
  rw [Enigma.enigmaVerdict_eq, Option.map_eq_none_iff] at verdict
  have pass := enigmaKeysPass verdict
  refine ⟨enigmaSetup s.keys, (Enigma.execStart_enigma dirOk idle).trans (startRun_passed verdict),
    fun k => ⟨enigmaSetup_ewid_toNat pass k, ?_⟩, rfl, fun i l m => plugBoard_pair pass, fun l => plugBoard_unplugged⟩
  rw [enigmaSetup, getElem_ofFn_fin, letterBits_toNat, floorMod_val]
  rfl

theorem offsets_eq (w : Fin 6) : #v[15, 14, 13, 12, 11, 10][w] = wheelOffset w.val := by
  fin_cases w <;> rfl

theorem letterOf_eq {w : Nat} {v : BitVec w} {l : Letter} (value : v.toNat = l.val) : letterOf v = l := by
  apply Fin.ext
  rw [letterOf_val, value, Nat.mod_eq_of_lt l.isLt]

theorem m209Setup_act_toNat (par : Parameters) (keys : KeyRegs) (w : Fin 6) :
    (m209Setup par keys).act[w].toNat =
      (wheelOffset w.val + wheelIndex par w (letterOf keys.mkey[w])) % wheelLength w.val := by
  obtain ⟨positive, fits⟩ := wheelLength_bounds w
  have below := Nat.mod_lt (wheelOffset w.val + wheelIndex par w (letterOf keys.mkey[w])) positive
  rw [m209Setup, getElem_ofFn_fin, BitVec.toNat_ofNat]
  exact Nat.mod_eq_of_lt (by omega)

/-- The snapshot of the lugs keeps their values (R231). -/
theorem m209Setup_lugs {keys : KeyRegs} (pass : M209KeysPass keys) (par : Parameters) (b : Fin 27) :
    (m209Setup par keys).la[b].toNat = keys.mluga[b].toNat ∧ (m209Setup par keys).lb[b].toNat = keys.mlugb[b].toNat := by
  rw [m209Setup, getElem_ofFn_fin, getElem_ofFn_fin, toNat_setWidth_of_lt (pass.lugA b) (by decide),
    toNat_setWidth_of_lt (pass.lugB b) (by decide)]
  exact ⟨rfl, rfl⟩

/-- Settles O24: with the checks passed `START M209` is `m209Setup`. -/
theorem startM209SetsUp : Obligations.StartM209SetsUp := by
  intro s dir dirOk idle verdict
  rw [M209.m209Verdict_eq, Option.map_eq_none_iff] at verdict
  refine ⟨m209Setup s.par s.keys, (M209.execStart_m209 dirOk idle).trans (startRun_passed verdict),
    fun w l letter => ?_, fun _ _ => rfl, m209Setup_lugs (m209KeysPass verdict) s.par, rfl⟩
  rw [m209Setup_act_toNat, letterOf_eq letter.symm, offsets_eq]
  rfl

/-- The copies of the SIGABA keys keep their values (R271). -/
theorem sigabaSetup_toNat {keys : KeyRegs} (pass : SigabaKeysPass keys) (j : Fin 5) :
    (sigabaSetup keys).cid[j].toNat = keys.scrot[j].toNat ∧ (sigabaSetup keys).kid[j].toNat = keys.skrot[j].toNat ∧
    (sigabaSetup keys).xid[j].toNat = keys.sirot[j].toNat ∧ (sigabaSetup keys).cp[j].toNat = keys.sind[j].toNat ∧
    (sigabaSetup keys).kp[j].toNat = keys.skpos[j].toNat ∧ (sigabaSetup keys).ip[j].toNat = keys.sipos[j].toNat := by
  simp only [sigabaSetup, getElem_ofFn_fin]
  exact ⟨toNat_setWidth_of_lt (pass.cipherRotor j) (by decide), toNat_setWidth_of_lt (pass.controlRotor j) (by decide),
    toNat_setWidth_of_lt (pass.indexRotor j) (by decide), toNat_setWidth_of_lt (pass.indicator j) (by decide),
    toNat_setWidth_of_lt (pass.controlPosition j) (by decide), toNat_setWidth_of_lt (pass.indexPosition j) (by decide)⟩

/-- Settles O26: with the checks passed `START SIGABA` is `sigabaSetup`, and the direction sets `MODE`. -/
theorem startSigabaSetsUp : Obligations.StartSigabaSetsUp := by
  intro s dir dirOk idle verdict
  rw [Sigaba.sigabaVerdict_eq, Option.map_eq_none_iff] at verdict
  exact ⟨sigabaSetup s.keys, (Sigaba.execStart_sigaba dirOk idle).trans (startRun_passed verdict),
    sigabaSetup_toNat (sigabaKeysPass verdict), rfl, rfl⟩

end Sys2Proof.Proofs.Setup

namespace Sys2Proof.Proofs.Soundness

open Sys2Proof Sys2Proof.Machine Sys2Proof.Claims

/-! ### A state is sound when its running machine is (R79) -/

section ByMode

variable {s : State}

theorem sound_of_idle (idle : s.mode = .idle) : s.Sound := by
  simp [State.Sound, idle, Mode.isSigaba]

theorem sound_of_enigma (running : s.mode = .enigma) (sound : EnigmaSound s.par s.eng) : s.Sound := by
  simpa [State.Sound, running, Mode.isSigaba] using sound

theorem sound_of_m209 (running : s.mode = .m209) (sound : M209Sound s.m209) : s.Sound := by
  simpa [State.Sound, running, Mode.isSigaba] using sound

theorem sound_of_sigaba (running : s.mode.isSigaba = true) (sound : SigabaSound s.sig) : s.Sound := by
  refine ⟨fun enigma => ?_, fun m209 => ?_, fun _ => sound⟩
  · rw [enigma] at running; cases running
  · rw [m209] at running; cases running

end ByMode

/-! ### `START` builds sound registers (R79, R191, R231, R271) -/

theorem plugPass_eq {r : EnigmaRegs} {l m : Letter} (image : r.plug[l].toNat = m.val) : plugPass r l = m :=
  Setup.letterOf_eq image

theorem enigmaSetup_sound {par : Parameters} {keys : KeyRegs} (pass : Setup.EnigmaKeysPass par keys) :
    EnigmaSound par (enigmaSetup keys) := by
  refine ⟨fun k => ⟨?_, ?_⟩, pass.reflector, fun l => ?_⟩
  · rw [Setup.enigmaSetup_ewid_toNat pass]
    exact pass.rotor ⟨2 - k.val, by omega⟩
  · rw [enigmaSetup, Setup.getElem_ofFn_fin, letterBits_toNat]
    exact Fin.isLt _
  · obtain ⟨m, image, back⟩ := Setup.plugBoard_image pass l
    have plug : (enigmaSetup keys).plug = plugBoard keys := rfl
    rw [← plug] at image back
    rw [plugPass_eq image, plugPass_eq back, image]
    exact ⟨m.isLt, rfl⟩

theorem m209Setup_sound {keys : KeyRegs} (pass : Setup.M209KeysPass keys) (par : Parameters) :
    M209Sound (m209Setup par keys) := by
  refine ⟨fun w => ?_, fun b => ?_, Nat.zero_le _⟩
  · rw [Setup.m209Setup_act_toNat]
    exact Nat.mod_lt _ (wheelLength_bounds w).1
  · obtain ⟨lugA, lugB⟩ := Setup.m209Setup_lugs pass par b
    rw [lugA, lugB]
    exact ⟨Nat.le_of_lt_succ (pass.lugA b), Nat.le_of_lt_succ (pass.lugB b)⟩

theorem sigabaSetup_sound {keys : KeyRegs} (pass : Setup.SigabaKeysPass keys) : SigabaSound (sigabaSetup keys) := by
  refine ⟨fun j => ?_, fun j => ?_, Nat.zero_lt_succ _⟩
  all_goals
    obtain ⟨cipher, control, index, indicator, controlPosition, indexPosition⟩ := Setup.sigabaSetup_toNat pass j
  · rw [cipher, control, index]
    exact ⟨pass.cipherRotor j, pass.controlRotor j, pass.indexRotor j⟩
  · rw [indicator, controlPosition, indexPosition]
    exact ⟨pass.indicator j, pass.controlPosition j, pass.indexPosition j⟩

/-! ### `SYMBOL` keeps the registers sound (R79, R145, R148–R150) -/

theorem advance_letter_lt (v : BitVec 5) : (advance 26 v).toNat < 26 := advance_lt v (by decide)

theorem middleAfterCarry_lt {par : Parameters} {r : EnigmaRegs} (inRange : ∀ k : Fin 3, r.ep[k].toNat < 26) :
    (Stepping.middleAfterCarry par r).toNat < 26 := by
  rw [Stepping.middleAfterCarry_toNat]
  split
  · exact Nat.mod_lt _ (by decide)
  · exact inRange 1

theorem stepEnigma_lt {par : Parameters} {r : EnigmaRegs} (inRange : ∀ k : Fin 3, r.ep[k].toNat < 26) (k : Fin 3) :
    (stepEnigma par r)[k].toNat < 26 := by
  by_cases carry : (Stepping.middleAfterCarry par r).toNat = (enigmaNotch par r.ewid[1]).val
  · rw [Stepping.stepEnigma_of_carry carry]
    match k with
    | 0 | 1 | 2 => exact advance_letter_lt _
  · rw [Stepping.stepEnigma_of_no_carry carry]
    match k with
    | 0 => exact advance_letter_lt _
    | 1 => exact middleAfterCarry_lt inRange
    | 2 => exact inRange 2

theorem enigmaSymbol_sound {par : Parameters} {r : EnigmaRegs} (sound : EnigmaSound par r) (x : Letter) :
    EnigmaSound par (enigmaSymbol par r x).1 := by
  obtain ⟨bank, reflector, plug⟩ := sound
  exact ⟨fun k => ⟨(bank k).1, stepEnigma_lt (fun k => (bank k).2) k⟩, reflector, plug⟩

theorem m209Symbol_sound {r : M209Regs} (sound : M209Sound r) (x : Letter) : M209Sound (m209Symbol r x).1 := by
  obtain ⟨-, lugs, -⟩ := sound
  refine ⟨fun w => ?_, lugs, ?_⟩
  · have stepped := M209.getElem_stepM209_toNat r.act w
    exact stepped ▸ Nat.mod_lt _ (wheelLength_bounds w).1
  · have count := keystream_le r
    have value : (m209Symbol r x).1.mkReg.toNat = keystream r % 64 := BitVec.toNat_ofNat _ _
    omega

theorem stepSigabaControl_lt {kp : Vector (BitVec 5) 5} (inRange : ∀ j : Fin 5, kp[j].toNat < 26) (cad : BitVec 10)
    (j : Fin 5) : (stepSigabaControl kp cad).1[j].toNat < 26 := by
  match j with
  | 0 => exact inRange 0
  | 1 =>
    change (if _ then _ else _ : BitVec 5).toNat < 26
    split
    · exact advance_letter_lt _
    · exact inRange 1
  | 2 => exact advance_letter_lt _
  | 3 =>
    change (if _ then _ else _ : BitVec 5).toNat < 26
    split
    · exact advance_letter_lt _
    · exact inRange 3
  | 4 => exact inRange 4

theorem stepSigabaCipher_lt {cp : Vector (BitVec 5) 5} (inRange : ∀ j : Fin 5, cp[j].toNat < 26) (xo : Vector Digit 4)
    (j : Fin 5) : (stepSigabaCipher cp xo).1[j].toNat < 26 := by
  rw [stepSigabaCipher, Setup.getElem_ofFn_fin]
  split
  · exact advance_letter_lt _
  · exact inRange j

theorem sigabaAdvance_sound {par : Parameters} {r : SigabaRegs} (sound : SigabaSound r) :
    SigabaSound (sigabaAdvance par r) := by
  obtain ⟨rotors, positions, -⟩ := sound
  rw [Sigaba.sigabaAdvance_eq]
  exact ⟨rotors, fun j => ⟨stepSigabaCipher_lt (fun j => (positions j).1) _ j,
    stepSigabaControl_lt (fun j => (positions j).2.1) _ j, (positions j).2.2⟩, advance_lt r.cad (by decide)⟩

/-! ### Every step keeps soundness (R79) -/

theorem effect_sound {s t : State} (sound : s.Sound) (effect : Effect s t) : t.Sound := by
  cases effect with
  | rejected | answered => exact sound
  | keyWritten keys idle => exact sound_of_idle idle
  | blockReset | runEnded => exact sound_of_idle rfl
  | enigmaStarted idle passed => exact sound_of_enigma rfl (enigmaSetup_sound (Setup.enigmaKeysPass passed))
  | m209Started idle passed => exact sound_of_m209 rfl (m209Setup_sound (Setup.m209KeysPass passed) s.par)
  | sigabaStarted idle passed mode sigaba =>
    exact sound_of_sigaba sigaba (sigabaSetup_sound (Setup.sigabaKeysPass passed))
  | enigmaSymbol running x => exact sound_of_enigma running (enigmaSymbol_sound (sound.1 running) x)
  | m209Symbol running x => exact sound_of_m209 running (m209Symbol_sound (sound.2.1 running) x)
  | sigabaSymbol running decoding x => exact sound_of_sigaba running (sigabaAdvance_sound (sound.2.2 running))

theorem serve_sound {event : PortEvent} {s t : State} (sound : s.Sound) (served : serve event s = .next t) :
    t.Sound := by
  rcases serve_effect served with effect | rfl | rfl
  · exact effect_sound sound effect
  · exact sound
  · exact sound_of_idle rfl

/-- Settles O49: a step waits, or serves an access, which is a command's effect, a read of `RSP` or a reset. -/
theorem stepKeepsSoundness : Obligations.StepKeepsSoundness := by
  intro s t sound stepped
  rcases step_cases stepped with ⟨-, rfl⟩ | ⟨event, rest, -, served⟩
  · exact sound
  · exact serve_sound (s := { s with inbox := rest }) sound served

/-! ### `SYMBOL` in a run (R304, R345) -/

theorem execSymbol_running {s : State} {x : Byte} (running : s.mode ≠ .idle) (letter : x.toNat ≤ 25) :
    ∃ (t : State) (y : Letter), execSymbol x s = .next t ∧ t.mode = s.mode ∧ t.rsp = BitVec.ofNat 32 y.val := by
  cases mode : s.mode with
  | idle => exact absurd mode running
  | enigma => exact ⟨_, _, execSymbol_enigma mode letter, mode, rfl⟩
  | m209 => exact ⟨_, _, execSymbol_m209 mode letter, mode, rfl⟩
  | sigabaEnc | sigabaDec => exact ⟨_, _, execSymbol_sigaba (by rw [mode]; rfl) letter, mode, rfl⟩

/-- Settles O31: each machine answers a letter, and the symbol is an effect, which keeps soundness. -/
theorem symbolNeverFailsInARun : Obligations.SymbolNeverFailsInARun := by
  intro s x sound running letter
  obtain ⟨t, y, answered, mode, answer⟩ := execSymbol_running running letter
  have effect : Effect s t := effect_of_exec (i := .symbol x) answered
  exact ⟨t, answered, effect_sound sound effect, mode, y, answer⟩

end Sys2Proof.Proofs.Soundness

namespace Sys2Proof.Proofs.Responses

open Sys2Proof Sys2Proof.Machine Sys2Proof.Claims

/-! ### The response of every command (R111, R340, R342) -/

/-- Every effect answers with a status, and an error carries no data. -/
theorem effect_rsp {s t : State} (effect : Effect s t) :
    ∃ (code : Status) (data : Data16), t.rsp = responseWord code data ∧ (code = .ok ∨ data = 0#16) := by
  cases effect with
  | rejected code => exact ⟨code, 0#16, rfl, .inr rfl⟩
  | _ => exact ⟨.ok, _, rfl, .inl rfl⟩

theorem responseSound_of_rsp {t : State} {code : Status} {data : Data16} (answer : t.rsp = responseWord code data)
    (form : code = .ok ∨ data = 0#16) : t.ResponseSound := by
  rw [State.ResponseSound, answer, responseStatus_responseWord, responseData_responseWord]
  refine ⟨responseWord_zeroByte code data, code.code_le, fun error => ?_⟩
  rcases form with rfl | rfl
  · exact absurd rfl error
  · rfl

theorem effect_responseSound {s t : State} (effect : Effect s t) : t.ResponseSound := by
  obtain ⟨code, data, answer, form⟩ := effect_rsp effect
  exact responseSound_of_rsp answer form

/-- Settles O9: every word has an effect, and every effect a response of the form. -/
theorem everyCommandIsAnswered : Obligations.EveryCommandIsAnswered := by
  intro w s
  obtain ⟨t, answered, effect⟩ := commandStep_effect w s
  exact ⟨t, answered, effect_responseSound effect⟩

theorem resetBlock_responseSound (s : State) : s.resetBlock.ResponseSound :=
  responseSound_of_rsp (code := .ok) (data := 0#16) rfl (.inl rfl)

/-- Settles O50: waiting and a read of `RSP` keep the response, and everything else answers anew. -/
theorem stepKeepsTheResponseForm : Obligations.StepKeepsTheResponseForm := by
  intro s t sound stepped
  rcases step_cases stepped with ⟨-, rfl⟩ | ⟨event, rest, -, served⟩
  · exact sound
  · rcases serve_effect served with effect | rfl | rfl
    · exact effect_responseSound effect
    · exact sound
    · exact resetBlock_responseSound _

/-- Settles O48: at reset no machine runs and the response is `OK` with no data. -/
theorem resetIsSound : Obligations.ResetIsSound :=
  ⟨Soundness.sound_of_idle rfl, responseSound_of_rsp (code := .ok) (data := 0#16) rfl (.inl rfl)⟩

theorem effect_par {s t : State} (effect : Effect s t) : t.par = s.par := by
  cases effect <;> rfl

/-- Settles O51: no effect, no read and no reset writes `par`. -/
theorem stepKeepsTheParameters : Obligations.StepKeepsTheParameters := by
  intro s t stepped
  rcases step_cases stepped with ⟨-, rfl⟩ | ⟨event, rest, -, served⟩
  · rfl
  · rcases serve_effect served with effect | rfl | rfl
    · exact (effect_par effect).trans rfl
    · rfl
    · rfl

/-- Settles O52: the one effect whose status is not `OK` is the raising of a code. -/
theorem errorsChangeNoState : Obligations.ErrorsChangeNoState := by
  intro w s t answered refused
  cases effect_of_commandStep answered with
  | rejected => rfl
  | _ => exact absurd (responseStatus_responseWord _ _) refused

end Sys2Proof.Proofs.Responses

namespace Sys2Proof.Proofs.CommandCases

open Sys2Proof Sys2Proof.Machine Sys2Proof.Claims

/-! ### What each command can answer, and which registers it writes (R30, R32, R107) -/

/-- The ways a command ends: a selector out of range, another code, or `OK`. An accepted command keeps the key registers
but for a key write with no run and `SRESET`, and keeps `MODE` but for `START`, `END` and `SRESET`. -/
inductive Answer (i : Instr) (s : State) : State → Prop where
  | badSlot (illFormed : ¬ i.WellFormed) : Answer i s (s.withResponse .badSlot 0#16)
  | refused (wellFormed : i.WellFormed) (code : Status) (notSlot : code ≠ .badSlot) :
      Answer i s (s.withResponse code 0#16)
  | accepted (wellFormed : i.WellFormed) (t : State) (data : Data16)
      (keys : t.keys = s.keys ∨ i = .sreset ∨ (IsKeyWrite i ∧ s.mode = .idle))
      (mode : t.mode = s.mode ∨ (s.mode = .idle ∧ ∃ machine dir, i = .start machine dir) ∨
        (t.mode = .idle ∧ (i = .endRun ∨ i = .sreset))) :
      Answer i s (t.withResponse .ok data)

theorem raise_badSlot_answer {i : Instr} {s t : State} (illFormed : ¬ i.WellFormed)
    (answered : raise s .badSlot = .next t) : Answer i s t := by
  cases answered
  exact .badSlot illFormed

theorem raise_answer {i : Instr} {s t : State} {code : Status} (wellFormed : i.WellFormed) (notSlot : code ≠ .badSlot)
    (answered : raise s code = .next t) : Answer i s t := by
  cases answered
  exact .refused wellFormed code notSlot

/-- An answer that changes no register. -/
theorem respond_answer {i : Instr} {s t : State} {data : Data16} (wellFormed : i.WellFormed)
    (answered : respond s data = .next t) : Answer i s t := by
  cases answered
  exact .accepted wellFormed s data (.inl rfl) (.inl rfl)

theorem writeKey_answer {i : Instr} {s t : State} {inRange : Bool} {keys : KeyRegs} (write : IsKeyWrite i)
    (check : inRange = true ↔ i.WellFormed) (answered : writeKey s inRange keys = .next t) : Answer i s t := by
  cases inRange with
  | false => exact raise_badSlot_answer (fun wellFormed => Bool.false_ne_true (check.mpr wellFormed)) answered
  | true =>
    have wellFormed : i.WellFormed := check.mp rfl
    by_cases idle : s.mode = .idle
    · rw [writeKey_done idle] at answered
      cases answered
      exact .accepted wellFormed (s.withKeys keys) 0#16 (.inr (.inr ⟨write, idle⟩)) (.inl rfl)
    · rw [writeKey_busy idle] at answered
      cases answered
      exact .refused wellFormed .busy (by decide)

theorem execM209Pin_answer {wheel pin bit : Byte} {s t : State} (answered : execM209Pin wheel pin bit s = .next t) :
    Answer (.m209Pin wheel pin bit) s t := by
  unfold execM209Pin at answered
  split at answered
  · exact raise_badSlot_answer (fun wellFormed : _ ∧ _ => by omega) answered
  · have wellFormed : (Instr.m209Pin wheel pin bit).WellFormed := ⟨by omega, by omega⟩
    split at answered
    · exact raise_answer wellFormed (by decide) answered
    · split at answered
      · exact raise_answer wellFormed (by decide) answered
      · cases answered
        exact .accepted wellFormed _ _ (.inr (.inr ⟨trivial, by simpa using ‹¬ s.mode ≠ .idle›⟩)) (.inl rfl)

theorem startRun_answer {machine dir : Byte} {s t started : State} {checks : List (Bool × Status)}
    (answered : startRun s checks started = .next t) (wellFormed : (Instr.start machine dir).WellFormed)
    (idle : s.mode = .idle) (keys : started.keys = s.keys) (codes : ∀ check ∈ checks, check.2 ≠ .badSlot) :
    Answer (.start machine dir) s t := by
  unfold startRun at answered
  split at answered
  · exact raise_answer wellFormed (codes _ (firstFailure_mem ‹_›)) answered
  · cases answered
    exact .accepted wellFormed _ _ (.inl keys) (.inr (.inl ⟨idle, machine, dir, rfl⟩))

theorem execStart_answer {machine dir : Byte} {s t : State} (answered : execStart machine dir s = .next t) :
    Answer (.start machine dir) s t := by
  unfold execStart at answered
  split at answered
  · exact raise_badSlot_answer (fun wellFormed : _ ∧ _ => by omega) answered
  · have wellFormed : (Instr.start machine dir).WellFormed := ⟨by omega, by omega⟩
    split at answered
    · exact raise_answer wellFormed (by decide) answered
    · have idle : s.mode = .idle := by simpa using ‹¬ s.mode ≠ .idle›
      split at answered
      · exact startRun_answer answered wellFormed idle rfl (by simp [enigmaChecks])
      · exact startRun_answer answered wellFormed idle rfl (by simp [m209Checks])
      · exact startRun_answer answered wellFormed idle rfl (by simp [sigabaChecks])

/-- `SYMBOL` is refused, or answered by the running machine, which writes its own working registers alone. -/
theorem execSymbol_answer {x : Byte} {s t : State} (answered : execSymbol x s = .next t) :
    Answer (.symbol x) s t := by
  unfold execSymbol at answered
  split at answered
  · exact raise_answer trivial (by decide) answered
  · split at answered
    · exact raise_answer trivial (by decide) answered
    · split at answered
      · exact raise_answer trivial (by decide) answered
      all_goals
        cases answered
        exact .accepted trivial _ _ (.inl rfl) (.inl rfl)

theorem execRead_answer {group slot : Byte} {s t : State} (answered : execRead group slot s = .next t) :
    Answer (.read group slot) s t := by
  unfold execRead at answered
  rw [Orchestrator.readSlots_eq] at answered
  split at answered
  · exact raise_badSlot_answer (Nat.not_lt.mpr ‹_›) answered
  · have wellFormed : (Instr.read group slot).WellFormed := Nat.not_le.mp ‹_›
    split at answered
    · exact respond_answer wellFormed answered
    · exact raise_answer wellFormed (by decide) answered

theorem execEndRun_answer {s t : State} (answered : execEndRun s = .next t) : Answer .endRun s t := by
  unfold execEndRun at answered
  split at answered
  · exact respond_answer trivial answered
  · cases answered
    exact .accepted trivial _ _ (.inl rfl) (.inr (.inr ⟨rfl, .inl rfl⟩))

theorem exec_answer {i : Instr} {s t : State} (answered : exec i s = .next t) : Answer i s t := by
  cases i with
  | nop => exact respond_answer trivial answered
  | sreset =>
    cases answered
    exact .accepted trivial _ _ (.inr (.inl rfl)) (.inr (.inr ⟨rfl, .inr rfl⟩))
  | start machine dir => exact execStart_answer answered
  | endRun => exact execEndRun_answer answered
  | symbol x => exact execSymbol_answer answered
  | read group slot => exact execRead_answer answered
  | m209Pin wheel pin bit => exact execM209Pin_answer answered
  | engRefl reflector =>
    exact writeKey_answer (inRange := true) (keys := { s.keys with eref := reflector }) trivial
      (iff_of_true rfl trivial) answered
  | engPlug string index letter =>
    exact writeKey_answer trivial (by rw [Bool.and_eq_true, decide_eq_true_iff, decide_eq_true_iff]) answered
  | engRotor | engPos | engRing | m209Key | m209Lug | sigCrot | sigKrot | sigIrot | sigInd | sigKpos | sigIpos =>
    exact writeKey_answer trivial decide_eq_true_iff answered

/-- Settles O53: the accepted commands that write key registers are those `Answer` names. -/
theorem keysAreWrittenByKeyWritesOnly : Obligations.KeysAreWrittenByKeyWritesOnly := by
  intro i s t answered notReset noWrite
  cases exec_answer answered with
  | badSlot | refused => rfl
  | accepted _ u data keys _ =>
    rcases keys with same | reset | ⟨write, idle⟩
    · exact same
    · exact absurd reset notReset
    · exact absurd noWrite (by simp [write, idle])

/-- Settles O54: the accepted commands that write `MODE` are those `Answer` names. -/
theorem modeIsWrittenByStartEndReset : Obligations.ModeIsWrittenByStartEndReset := by
  intro i s t answered changed
  cases exec_answer answered with
  | badSlot | refused => exact absurd rfl changed
  | accepted _ u data _ mode => exact mode.resolve_left changed

/-- Settles O57: the status of each `Answer` is read off its response. -/
theorem badSlotExactlyOutOfRange : Obligations.BadSlotExactlyOutOfRange := by
  intro i s t answered
  cases exec_answer answered with
  | badSlot illFormed =>
    rw [State.withResponse_rsp, responseStatus_responseWord]
    exact iff_of_true rfl illFormed
  | refused wellFormed code notSlot =>
    rw [State.withResponse_rsp, responseStatus_responseWord]
    exact iff_of_false (fun same => notSlot (Status.code_injective same)) (not_not_intro wellFormed)
  | accepted wellFormed =>
    rw [State.withResponse_rsp, responseStatus_responseWord]
    exact iff_of_false (by decide) (not_not_intro wellFormed)

/-! ### The refusals of `START` and `SYMBOL` (R302, R304, R343) -/

theorem execSymbol_idle {s : State} {x : Byte} (idle : s.mode = .idle) :
    execSymbol x s = .next { s with rsp := 0x04000000#32 } :=
  if_pos idle

theorem execSymbol_badSymbol {s : State} {x : Byte} (running : s.mode ≠ .idle) (noLetter : 25 < x.toNat) :
    execSymbol x s = .next { s with rsp := 0x0E000000#32 } := by
  rw [execSymbol, if_neg running, if_pos noLetter]
  rfl

/-- Settles O20: one lemma per refusal. -/
theorem startAndSymbolRefusals : Obligations.StartAndSymbolRefusals :=
  ⟨fun s _ _ => ⟨fun outside => Commands.execStart_badSlot outside s, Commands.execStart_busy⟩,
    fun _ _ => ⟨execSymbol_idle, execSymbol_badSymbol⟩⟩

/-! ### What `START` and the commands of a run read (R90, R302) -/

/-- The letters of a run are enciphered from the working registers alone. -/
theorem execSymbol_withOtherKeys {s t : State} {x : Byte} (keys : KeyRegs) (answered : execSymbol x s = .next t) :
    execSymbol x (withOtherKeys s keys) = .next (withOtherKeys t keys) := by
  by_cases idle : s.mode = .idle
  · rw [execSymbol_idle idle] at answered
    cases answered
    exact execSymbol_idle idle
  by_cases letter : x.toNat ≤ 25
  · cases mode : s.mode with
    | idle => exact absurd mode idle
    | enigma =>
      rw [execSymbol_enigma mode letter] at answered
      cases answered
      exact execSymbol_enigma mode letter
    | m209 =>
      rw [execSymbol_m209 mode letter] at answered
      cases answered
      exact execSymbol_m209 mode letter
    | sigabaEnc | sigabaDec =>
      have sigaba : s.mode.isSigaba = true := by rw [mode]; rfl
      rw [execSymbol_sigaba sigaba letter] at answered
      cases answered
      exact execSymbol_sigaba sigaba letter
  · rw [execSymbol_badSymbol idle (Nat.lt_of_not_le letter)] at answered
    cases answered
    exact execSymbol_badSymbol idle (Nat.lt_of_not_le letter)

theorem execRead_withOtherKeys {s t : State} {group slot : Byte} (keys : KeyRegs)
    (answered : execRead group slot s = .next t) :
    execRead group slot (withOtherKeys s keys) = .next (withOtherKeys t keys) := by
  have sameValue : readValue (withOtherKeys s keys) group.toNat slot.toNat = readValue s group.toNat slot.toNat := rfl
  unfold execRead at answered ⊢
  rw [sameValue]
  split at answered
  · cases answered
    exact if_pos ‹_›
  · rw [if_neg ‹_›]
    split at answered
    · cases answered
      exact if_pos ‹_›
    · cases answered
      exact if_neg ‹_›

theorem execEndRun_withOtherKeys {s t : State} (keys : KeyRegs) (answered : execEndRun s = .next t) :
    execEndRun (withOtherKeys s keys) = .next (withOtherKeys t keys) := by
  by_cases idle : s.mode = .idle
  · rw [Orchestrator.execEndRun_idle idle] at answered
    cases answered
    exact Orchestrator.execEndRun_idle idle
  · rw [Orchestrator.execEndRun_running idle] at answered
    cases answered
    exact Orchestrator.execEndRun_running idle

/-- Settles O55, one lemma per command. -/
theorem runsIgnoreTheKeys : Obligations.RunsIgnoreTheKeys := by
  rintro i s t keys (rfl | rfl | ⟨x, rfl⟩ | ⟨group, slot, rfl⟩) answered
  · cases answered
    rfl
  · exact execEndRun_withOtherKeys keys answered
  · exact execSymbol_withOtherKeys keys answered
  · exact execRead_withOtherKeys keys answered

/-- The same run: the same `MODE`, and the same working registers of the machine that runs. -/
abbrev SameRun (t t' : State) : Prop :=
  t'.mode = t.mode ∧ (t.mode = .enigma → t'.eng = t.eng) ∧ (t.mode = .m209 → t'.m209 = t.m209) ∧
    (t.mode.isSigaba = true → t'.sig = t.sig)

theorem sameRun_of_idle {t t' : State} (idle : t.mode = .idle) (idle' : t'.mode = .idle) : SameRun t t' := by
  simp [SameRun, idle, idle', Mode.isSigaba]

/-- Two idle blocks end `START` alike: both refuse with the same code, or both begin the run. -/
theorem startRun_agrees {s s' started started' : State} (checks : List (Bool × Status)) (idle : s.mode = .idle)
    (idle' : s'.mode = .idle) (same : SameRun started started') :
    ∃ t t', startRun s checks started = .next t ∧ startRun s' checks started' = .next t' ∧ t'.rsp = t.rsp ∧
      SameRun t t' := by
  cases failure : firstFailure checks with
  | some code =>
    exact ⟨_, _, startRun_refused failure, startRun_refused failure, rfl, sameRun_of_idle idle idle'⟩
  | none => exact ⟨_, _, startRun_passed failure, startRun_passed failure, rfl, same⟩

theorem machine_cases {machine : Byte} (inRange : machine.toNat ≤ 2) :
    machine = 0#8 ∨ machine = 1#8 ∨ machine = 2#8 := by
  bv_omega

/-- Settles O56: the checks and the setup of each machine are functions of the parameters and the keys. -/
theorem startReadsTheKeysOnly : Obligations.StartReadsTheKeysOnly := by
  intro s s' machine dir idle idle' par keys
  by_cases outside : 2 < machine.toNat ∨ 1 < dir.toNat
  · exact ⟨_, _, Commands.execStart_badSlot outside s, Commands.execStart_badSlot outside s', rfl,
      sameRun_of_idle idle idle'⟩
  have dirOk : dir.toNat ≤ 1 := by omega
  simp only [exec]
  rcases machine_cases (machine := machine) (by omega) with rfl | rfl | rfl
  · rw [Enigma.execStart_enigma dirOk idle, Enigma.execStart_enigma dirOk idle', par, keys]
    exact startRun_agrees _ idle idle' ⟨rfl, fun _ => rfl, nofun, nofun⟩
  · rw [M209.execStart_m209 dirOk idle, M209.execStart_m209 dirOk idle', par, keys]
    exact startRun_agrees _ idle idle' ⟨rfl, nofun, fun _ => rfl, nofun⟩
  · rw [Sigaba.execStart_sigaba dirOk idle, Sigaba.execStart_sigaba dirOk idle', keys]
    refine startRun_agrees _ idle idle' ⟨rfl, fun enigma => ?_, fun m209 => ?_, fun _ => rfl⟩
    · by_cases enc : dir = 0#8 <;> simp [enc] at enigma
    · by_cases enc : dir = 0#8 <;> simp [enc] at m209

end Sys2Proof.Proofs.CommandCases

namespace Sys2Proof.Proofs.RotorPass

open Sys2Proof Sys2Proof.Machine

/-! ### The rotor pass (R141–R143) -/

theorem floorMod_eq {n : Nat} [NeZero n] {a : Int} {e : Fin n} (value : (e.val : Int) = a % n) : floorMod n a = e := by
  have reduced := floorMod_val n a
  exact Fin.ext (by omega)

section Pass

variable {n : Nat} [NeZero n] {w : Wiring n} {s : Fin n} {p : Int}

theorem rotorPass_forward {e : Fin n} (entry : floorMod n (s.val + p) = e) :
    rotorPass s w p false = floorMod n (w[e].val - p) :=
  entry ▸ rfl

theorem rotorPass_inverse {e : Fin n} (entry : floorMod n (s.val + p) = e) :
    rotorPass s w p true = floorMod n ((wiringIndex w e).val - p) :=
  entry ▸ rfl

/-- The pass reads its position modulo n alone (R141). -/
theorem rotorPass_congr {q : Int} (same : p ≡ q [ZMOD n]) (invert : Bool) :
    rotorPass s w p invert = rotorPass s w q invert := by
  have entry : floorMod n (s.val + p) = floorMod n (s.val + q) := floorMod_congr (same.add_left _)
  have exit (o : Fin n) : floorMod n (o.val - p) = floorMod n (o.val - q) := floorMod_congr (same.sub_left _)
  simp only [rotorPass, entry, exit]

end Pass

theorem isPermutation_of_identity {n : Nat} {w : Wiring n} (identity : ∀ i : Fin n, w[i] = i) : w.IsPermutation := by
  refine vector_toList_nodup_iff.mpr fun i i' differ => ?_
  rwa [identity, identity]

section Permutation

variable {n : Nat} [NeZero n] {w : Wiring n}

/-- The identity wiring passes every symbol unchanged: the exit offset undoes the entry offset (R141). -/
theorem rotorPass_identity (identity : ∀ i : Fin n, w[i] = i) (s : Fin n) (p : Int) (invert : Bool) :
    rotorPass s w p invert = s := by
  cases invert with
  | false => rw [rotorPass_forward rfl, identity, floorMod_add_sub]
  | true =>
    have index (e : Fin n) : wiringIndex w e = e := by
      simpa only [identity] using wiringIndex_getElem (isPermutation_of_identity identity) e
    rw [rotorPass_inverse rfl, index, floorMod_add_sub]

theorem rotorPass_inverse_of_forward (permutation : w.IsPermutation) (s : Fin n) (p : Int) :
    rotorPass (rotorPass s w p false) w p true = s := by
  rw [rotorPass_forward rfl, rotorPass_inverse (floorMod_sub_add _ p), wiringIndex_getElem permutation, floorMod_add_sub]

theorem rotorPass_forward_of_inverse (permutation : w.IsPermutation) (s : Fin n) (p : Int) :
    rotorPass (rotorPass s w p true) w p false = s := by
  rw [rotorPass_inverse rfl, rotorPass_forward (floorMod_sub_add _ p), getElem_wiringIndex permutation, floorMod_add_sub]

end Permutation

/-- Settles O33: the entry is the symbol the statement names, and the inverse lookup finds the symbol wired to it. -/
theorem rotorPassComputes : Obligations.RotorPassComputes := by
  intro n _ w s p
  refine ⟨fun e entry => ?_, fun permutation e o entry wired => ?_,
    rotorPass_congr (Int.mod_modEq p n).symm, fun identity => rotorPass_identity identity s p⟩
  · rw [rotorPass_forward (floorMod_eq entry), floorMod_val]
  · rw [rotorPass_inverse (floorMod_eq entry), ← wired, wiringIndex_getElem permutation, floorMod_val]

/-- Settles O34: each direction is the other's inverse, and p + n is p modulo n. -/
theorem rotorPassInverts : Obligations.RotorPassInverts := by
  intro n _ w p permutation
  have undo (s : Fin n) := rotorPass_inverse_of_forward permutation s p
  have redo (s : Fin n) := rotorPass_forward_of_inverse permutation s p
  exact ⟨undo, redo, Function.bijective_iff_has_inverse.mpr ⟨fun s => rotorPass s w p true, undo, redo⟩,
    fun s => rotorPass_congr Int.add_modEq_right⟩

end Sys2Proof.Proofs.RotorPass

namespace Sys2Proof.Proofs.Periods

open Sys2Proof Sys2Proof.Machine Sys2Proof.Claims

/-! ### The Enigma bank (R146) -/

/-- The notch of slot 2 is never read (R146 g). -/
theorem stepEnigma_set_slot2 (par : Parameters) (r : EnigmaRegs) (rotor : BitVec 3) :
    stepEnigma par { r with ewid := r.ewid.set 2 rotor } = stepEnigma par r := by
  have slot0 : (r.ewid.set 2 rotor)[0] = r.ewid[0] := Vector.getElem_set_ne _ _ (by decide)
  have slot1 : (r.ewid.set 2 rotor)[1] = r.ewid[1] := Vector.getElem_set_ne _ _ (by decide)
  simp only [stepEnigma, slot0, slot1]

/-- The step in terms of the middle rotor after the first carry test (R145). -/
theorem stepEnigma_slots (par : Parameters) (r : EnigmaRegs) :
    (stepEnigma par r)[(0 : Fin 3)].toNat = (r.ep[(0 : Fin 3)].toNat + 1) % 26 ∧
    (stepEnigma par r)[(1 : Fin 3)].toNat =
      (if (Stepping.middleAfterCarry par r).toNat = (enigmaNotch par r.ewid[(1 : Fin 3)]).val then
        ((Stepping.middleAfterCarry par r).toNat + 1) % 26 else (Stepping.middleAfterCarry par r).toNat) ∧
    (stepEnigma par r)[(2 : Fin 3)].toNat =
      if (Stepping.middleAfterCarry par r).toNat = (enigmaNotch par r.ewid[(1 : Fin 3)]).val then
        (r.ep[(2 : Fin 3)].toNat + 1) % 26 else r.ep[(2 : Fin 3)].toNat := by
  rw [Stepping.middleAfterCarry_toNat]
  exact Stepping.enigmaStepComputes.1 par r

/-- The cases of R146 as arithmetic: by whether slot 0 reaches its notch, and whether the middle rotor then stands at
its own. -/
theorem carry_cases {n0 n1 p0 p1 p2 middle q0 q1 q2 : Nat} (notch : n1 < 26) (inRange1 : p1 < 26) (inRange2 : p2 < 26)
    (firstCarry : middle = if (p0 + 1) % 26 = n0 then (p1 + 1) % 26 else p1) (slot0 : q0 = (p0 + 1) % 26)
    (slot1 : q1 = if middle = n1 then (middle + 1) % 26 else middle)
    (slot2 : q2 = if middle = n1 then (p2 + 1) % 26 else p2) :
    let moved := fun d1 d2 : Nat => q0 = (p0 + 1) % 26 ∧ q1 = (p1 + d1) % 26 ∧ q2 = (p2 + d2) % 26
    ((p0 + 1) % 26 ≠ n0 → p1 ≠ n1 → moved 0 0) ∧
    ((p0 + 1) % 26 = n0 → (p1 + 1) % 26 ≠ n1 → moved 1 0) ∧
    ((p0 + 1) % 26 = n0 → (p1 + 1) % 26 = n1 → moved 2 1) ∧
    ((p0 + 1) % 26 ≠ n0 → p1 = n1 → moved 1 1) ∧
    ((p0 + 1) % 26 = n0 → p1 = n1 → moved 1 0) ∧
    q1 ≠ n1 := by
  dsimp only
  by_cases first : (p0 + 1) % 26 = n0
  · rw [if_pos first] at firstCarry
    by_cases second : middle = n1
    · rw [if_pos second] at slot1 slot2
      omega
    · rw [if_neg second] at slot1 slot2
      omega
  · rw [if_neg first] at firstCarry
    by_cases second : middle = n1
    · rw [if_pos second] at slot1 slot2
      omega
    · rw [if_neg second] at slot1 slot2
      omega

/-- Settles O36: the slots after the step meet `carry_cases`, and slot 2's notch is not read. -/
theorem enigmaStepCases : Obligations.EnigmaStepCases := by
  intro par r inRange n0 n1 p0 p1 p2 q moved
  obtain ⟨slot0, slot1, slot2⟩ := stepEnigma_slots par r
  obtain ⟨noCarry, carry, doubleStep, fromNotch, carryFromNotch, offNotch⟩ :=
    carry_cases (Fin.isLt _) (inRange 1) (inRange 2) (Stepping.middleAfterCarry_toNat par r) slot0 slot1 slot2
  exact ⟨noCarry, carry, doubleStep, fromNotch, carryFromNotch, offNotch, stepEnigma_set_slot2 par r⟩

/-! ### The M-209 wheels (R148) -/

theorem getElem_iterate_stepM209_toNat {act : Vector (BitVec 5) 6} {w : Fin 6} (inRange : act[w].toNat < wheelLength w)
    (n : Nat) : (stepM209^[n] act)[w].toNat = (act[w].toNat + n) % wheelLength w := by
  induction n with
  | zero => exact (Nat.mod_eq_of_lt inRange).symm
  | succ n ih => rw [Function.iterate_succ_apply', M209.getElem_stepM209_toNat, ih, Nat.mod_add_mod, Nat.add_assoc]

theorem add_mod_eq_self_iff {a n length : Nat} (inRange : a < length) : (a + n) % length = a ↔ length ∣ n := by
  have congruent := Nat.modEq_iff_dvd' (n := length) (Nat.le_add_right a n)
  rw [Nat.add_sub_cancel_left, Nat.ModEq, Nat.mod_eq_of_lt inRange, eq_comm] at congruent
  exact congruent

/-- The six lengths are pairwise coprime, with product 101,405,850. -/
theorem forall_wheelLength_dvd_iff {n : Nat} : (∀ w : Fin 6, wheelLength w ∣ n) ↔ 101405850 ∣ n := by
  constructor
  · intro divides
    have d0 : 26 ∣ n := divides 0
    have d1 : 25 ∣ n := divides 1
    have d2 : 23 ∣ n := divides 2
    have d3 : 21 ∣ n := divides 3
    have d4 : 19 ∣ n := divides 4
    have d5 : 17 ∣ n := divides 5
    have m1 := Nat.Coprime.mul_dvd_of_dvd_of_dvd (by norm_num) d0 d1
    have m2 := Nat.Coprime.mul_dvd_of_dvd_of_dvd (by norm_num) m1 d2
    have m3 := Nat.Coprime.mul_dvd_of_dvd_of_dvd (by norm_num) m2 d3
    have m4 := Nat.Coprime.mul_dvd_of_dvd_of_dvd (by norm_num) m3 d4
    exact Nat.Coprime.mul_dvd_of_dvd_of_dvd (by norm_num) m4 d5
  · intro divides w
    have factor : ∀ w : Fin 6, wheelLength w ∣ 101405850 := by decide
    exact (factor w).trans divides

theorem vector_eq_iff_toNat {n w : Nat} {u v : Vector (BitVec w) n} : u = v ↔ ∀ k : Fin n, u[k].toNat = v[k].toNat := by
  constructor
  · rintro rfl k
    rfl
  · intro same
    exact Vector.ext fun k below => BitVec.eq_of_toNat_eq (same ⟨k, below⟩)

/-- Settles O37: n steps add n to each counter modulo its length. -/
theorem m209WheelPeriod : Obligations.M209WheelPeriod := by
  intro act
  refine ⟨M209.getElem_stepM209_toNat act, fun inRange n => ?_⟩
  rw [vector_eq_iff_toNat, ← forall_wheelLength_dvd_iff]
  refine forall_congr' fun w => ?_
  rw [getElem_iterate_stepM209_toNat (inRange w)]
  exact add_mod_eq_self_iff (inRange w)

/-! ### The SIGABA control bank (R149) -/

theorem isControlAfter_zero {start : Vector (BitVec 5) 5} (inRange : ∀ j : Fin 5, start[j].toNat < 26) :
    IsControlAfter 0 start start 0#10 :=
  ⟨rfl, (Nat.mod_eq_of_lt (inRange 2)).symm, (Nat.mod_eq_of_lt (inRange 3)).symm, (Nat.mod_eq_of_lt (inRange 1)).symm,
    rfl, rfl⟩

/-- A register that counts the multiples of `period` up to n, one symbol later. -/
theorem counter_step {period n start : Nat} {moves : Prop} [Decidable moves] {now : BitVec 5}
    (here : now.toNat = (start + n / period) % 26) (wraps : moves ↔ (n + 1) % period = 0) :
    (if moves then advance 26 now else now).toNat = (start + (n + 1) / period) % 26 := by
  have quotient : (n + 1) / period = n / period + if period ∣ n + 1 then 1 else 0 := Nat.succ_div
  simp only [Nat.dvd_iff_mod_eq_zero, ← wraps] at quotient
  rw [quotient]
  split
  · rw [Stepping.advance_letter_toNat, here, Nat.mod_add_mod, Nat.add_assoc]
  · exact here

theorem isControlAfter_step {n : Nat} {start now : Vector (BitVec 5) 5} {cad : BitVec 10}
    (here : IsControlAfter n start now cad) :
    IsControlAfter (n + 1) start (stepSigabaControl now cad).1 (stepSigabaControl now cad).2 := by
  obtain ⟨cadence, slot2, slot3, slot1, slot0, slot4⟩ := here
  have nextCadence : (advance 676 cad).toNat = (n + 1) % 676 := by
    rw [advance_toNat cad (by decide) (by decide), cadence, Nat.mod_add_mod]
  have wraps26 : (advance 676 cad).toNat % 26 = 0 ↔ (n + 1) % 26 = 0 := by omega
  have wraps676 : advance 676 cad = 0#10 ↔ (n + 1) % 676 = 0 := by
    rw [← BitVec.toNat_inj, nextCadence]
    rfl
  refine ⟨nextCadence, ?_, counter_step slot3 wraps26, counter_step slot1 wraps676, slot0, slot4⟩
  have moved : (advance 26 now[(2 : Fin 5)]).toNat = _ := Stepping.advance_letter_toNat _
  exact moved.trans (by omega)

theorem isControlAfter_controlAfter {kp : Vector (BitVec 5) 5} (inRange : ∀ j : Fin 5, kp[j].toNat < 26) (n : Nat) :
    IsControlAfter n kp (controlAfter n kp 0#10).1 (controlAfter n kp 0#10).2 := by
  induction n with
  | zero => exact isControlAfter_zero inRange
  | succ n ih =>
    rw [controlAfter, Function.iterate_succ_apply']
    exact isControlAfter_step ih

/-! ### The SIGABA cipher bank (R150) -/

/-- `ADV` has the bits of the numbers in the set, each once. -/
theorem testBit_sum_two_pow {numbers : List Nat} (sorted : numbers.SortedLT) (j : Nat) :
    (numbers.map (2 ^ ·)).sum.testBit j = true ↔ j ∈ numbers := by
  rw [← Nat.mem_bitIndices, Nat.bitIndices_sum_map_two_pow sorted]

theorem stepSigabaCipher_adv (cp : Vector (BitVec 5) 5) (xo : Vector Digit 4) (j : Fin 5) :
    (stepSigabaCipher cp xo).2.getLsbD j = true ↔ inAdvanceSet xo j = true := by
  have sorted : ((List.range 5).filter (inAdvanceSet xo)).SortedLT :=
    (List.pairwise_lt_range.filter _).sortedLT
  rw [stepSigabaCipher, BitVec.getLsbD_ofNat, Bool.and_eq_true, testBit_sum_two_pow sorted, List.mem_filter]
  simp

theorem getElem_stepSigabaCipher (cp : Vector (BitVec 5) 5) (xo : Vector Digit 4) (j : Fin 5) :
    (stepSigabaCipher cp xo).1[j] = if inAdvanceSet xo j then advance 26 cp[j] else cp[j] :=
  Setup.getElem_ofFn_fin _ j

/-- The register a final digit names (R150). -/
def namedRegister (d : Digit) : Fin 5 := ⟨d.val / 2, by omega⟩

/-- Settles O39: the set is the image of the four final digits, so it has 1 to 4 members. -/
theorem sigabaCipherAdvance : Obligations.SigabaCipherAdvance := by
  intro cp xo named q
  have advanced (j : Fin 5) : inAdvanceSet xo j = true ↔ named j := inAdvanceSet_iff
  have image : Finset.univ.filter named = Finset.univ.image fun m : Fin 4 => namedRegister xo[m] := by
    ext j
    simp [named, namedRegister, Fin.ext_iff]
  refine ⟨fun j => ⟨fun on => ?_, fun off => ?_⟩, fun j => (stepSigabaCipher_adv cp xo j).trans (advanced j), ?_, ?_⟩
  · rw [getElem_stepSigabaCipher, if_pos ((advanced j).mpr on)]
    exact Stepping.advance_letter_toNat _
  · rw [getElem_stepSigabaCipher, if_neg (mt (advanced j).mp off)]
  · rw [image, Nat.one_le_iff_ne_zero, Finset.card_ne_zero, Finset.image_nonempty]
    exact Finset.univ_nonempty
  · rw [image]
    exact Finset.card_image_le

end Sys2Proof.Proofs.Periods

namespace Sys2Proof.Proofs.Runs

open Sys2Proof Sys2Proof.Machine Sys2Proof.Claims

/-! ### The meaning of a letter in a run (R112, R304) -/

/-- Every letter x takes `s` to `next` and is answered with `output x`: no register but the response depends on x. -/
def SymbolMeaning (s next : State) (output : Letter → Letter) : Prop :=
  ∀ x : Byte, x.toNat ≤ 25 →
    exec (.symbol x) s = .next { next with rsp := BitVec.ofNat 32 (output (letterOf x)).val }

theorem symbolMeaning_enigma {s : State} (running : s.mode = .enigma) :
    SymbolMeaning s { s with eng := { s.eng with ep := stepEnigma s.par s.eng } }
      fun x => (enigmaSymbol s.par s.eng x).2 :=
  fun _ letter => execSymbol_enigma running letter

theorem symbolMeaning_m209 {s : State} (running : s.mode = .m209) :
    SymbolMeaning s
      { s with m209 := { s.m209 with mkReg := BitVec.ofNat 6 (keystream s.m209), act := stepM209 s.m209.act } }
      (m209Output (keystream s.m209)) :=
  fun _ letter => execSymbol_m209 running letter

theorem symbolMeaning_sigaba {s : State} (running : s.mode.isSigaba = true) :
    SymbolMeaning s { s with sig := sigabaAdvance s.par s.sig } (cipherBank s.par s.sig (s.mode == .sigabaDec)) :=
  fun _ letter => execSymbol_sigaba running letter

theorem portStep_encode {i : Instr} {s t : State} (answered : exec i s = .next t) :
    portStep s (encode i) = (t, t.rsp) :=
  portStep_of_next ((Decoder.commandStep_encode i s).trans answered)

theorem portStep_symbol {s next : State} {output : Letter → Letter} (meaning : SymbolMeaning s next output) {x : Byte}
    (letter : x.toNat ≤ 25) :
    portStep s (encode (.symbol x)) =
      ({ next with rsp := BitVec.ofNat 32 (output (letterOf x)).val }, BitVec.ofNat 32 (output (letterOf x)).val) :=
  portStep_encode (meaning x letter)

/-- The code of the letter a response carries (R112). -/
theorem cField_ofNat (y : Letter) : cField (BitVec.ofNat 32 y.val) = BitVec.ofNat 8 y.val := by
  apply BitVec.eq_of_toNat_eq
  simp only [cField, BitVec.extractLsb'_toNat, BitVec.toNat_ofNat, Nat.shiftRight_zero]
  omega

theorem toNat_ofNat_le (y : Letter) : (BitVec.ofNat 8 y.val).toNat ≤ 25 := by
  rw [BitVec.toNat_ofNat]
  omega

theorem ofNat_letterOf {x : Byte} (letter : x.toNat ≤ 25) : BitVec.ofNat 8 (letterOf x).val = x := by
  apply BitVec.eq_of_toNat_eq
  rw [BitVec.toNat_ofNat, letterOf_val]
  omega

/-- A map of letters that is an involution makes `SYMBOL` one, from one state (R196, R235). -/
theorem symbol_involution {s next : State} {output : Letter → Letter} (meaning : SymbolMeaning s next output)
    (involution : ∀ l, output (output l) = l) {x : Byte} (letter : x.toNat ≤ 25) :
    ∃ t u, exec (.symbol x) s = .next t ∧ exec (.symbol (cField t.rsp)) s = .next u ∧ cField u.rsp = x ∧
      u = { t with rsp := u.rsp } := by
  refine ⟨_, _, meaning x letter, meaning _ ?_, ?_, rfl⟩
  · rw [cField_ofNat]
    exact toNat_ofNat_le _
  · rw [cField_ofNat, cField_ofNat, letterOf_ofNat, involution, ofNat_letterOf letter]

/-! ### Messages (R306) -/

theorem isMessage_tail {x : Byte} {m : List Byte} (message : IsMessage (x :: m)) : IsMessage m :=
  fun y mem => message y (List.mem_cons_of_mem x mem)

/-- Any letters take two runs on together: what their two outputs have in common, and what relates the states after,
whatever was answered. -/
def GoOnTogether (s s' : State) (outputs : (Letter → Letter) → (Letter → Letter) → Prop) (after : State → State → Prop) :
    Prop :=
  ∃ next next' output output', SymbolMeaning s next output ∧ SymbolMeaning s' next' output' ∧ outputs output output' ∧
    ∀ rsp rsp', after { next with rsp := rsp } { next' with rsp := rsp' }

theorem GoOnTogether.mono {s s' : State} {outputs outputs' : (Letter → Letter) → (Letter → Letter) → Prop}
    {after after' : State → State → Prop} (together : GoOnTogether s s' outputs after)
    (weaker : ∀ output output', outputs output output' → outputs' output output')
    (weakerAfter : ∀ t t', after t t' → after' t t') : GoOnTogether s s' outputs' after' := by
  obtain ⟨next, next', output, output', meaning, meaning', related, kept⟩ := together
  exact ⟨next, next', output, output', meaning, meaning', weaker _ _ related,
    fun rsp rsp' => weakerAfter _ _ (kept rsp rsp')⟩

/-- A second run undoes the first along a whole message, where in related states its letters undo the first's, and the
states stay related. -/
theorem runSymbols_roundTrip {R : State → State → Prop}
    (undoes : ∀ {t t' : State}, R t t' → GoOnTogether t t' (fun output output' => Function.LeftInverse output' output) R)
    {t t' : State} (related : R t t') {m : List Byte} (message : IsMessage m) :
    (runSymbols t' (runSymbols t m).2).2 = m := by
  induction m generalizing t t' with
  | nil => rfl
  | cons x m ih =>
    have letter := message x List.mem_cons_self
    obtain ⟨next, next', output, output', meaning, meaning', undone, kept⟩ := undoes related
    have first := portStep_symbol meaning letter
    have second := portStep_symbol meaning' (toNat_ofNat_le (output (letterOf x)))
    simp only [runSymbols, first, cField_ofNat, second, letterOf_ofNat, undone (letterOf x), ofNat_letterOf letter]
    exact congrArg _ (ih (kept _ _) (isMessage_tail message))

/-- A value of the state after each symbol of a message. -/
def valuesAfter {α : Type} (value : State → α) (s : State) : List Byte → List α
  | [] => []
  | x :: xs => value (portStep s (encode (.symbol x))).1 :: valuesAfter value (portStep s (encode (.symbol x))).1 xs

theorem enigmaPositions_eq (s : State) (m : List Byte) : enigmaPositions s m = valuesAfter (·.eng.ep) s m := by
  induction m generalizing s with
  | nil => rfl
  | cons x m ih => exact congrArg (_ :: ·) (ih _)

theorem keystreamValues_eq (s : State) (m : List Byte) : keystreamValues s m = valuesAfter (·.m209.mkReg) s m := by
  induction m generalizing s with
  | nil => rfl
  | cons x m ih => exact congrArg (_ :: ·) (ih _)

theorem sigabaStates_eq (s : State) (m : List Byte) : sigabaStates s m = valuesAfter (·.sig) s m := by
  induction m generalizing s with
  | nil => rfl
  | cons x m ih => exact congrArg (_ :: ·) (ih _)

/-- Two runs show the same values along messages of one length, where related states go to related states with the same
value, whatever the letters. -/
theorem valuesAfter_eq {α : Type} {value : State → α} {R : State → State → Prop}
    (kept : ∀ {s s' : State}, R s s' → GoOnTogether s s' (fun _ _ => True) fun t t' => R t t' ∧ value t' = value t)
    {s s' : State} (related : R s s') {m m' : List Byte} (message : IsMessage m) (message' : IsMessage m')
    (length : m'.length = m.length) : valuesAfter value s' m' = valuesAfter value s m := by
  induction m generalizing s s' m' with
  | nil => rw [List.eq_nil_of_length_eq_zero length]; rfl
  | cons x m ih =>
    obtain ⟨x', m', rfl⟩ := List.exists_cons_of_length_eq_add_one length
    obtain ⟨next, next', output, output', meaning, meaning', -, agree⟩ := kept related
    simp only [valuesAfter, portStep_symbol meaning (message x List.mem_cons_self),
      portStep_symbol meaning' (message' x' List.mem_cons_self)]
    obtain ⟨nextRelated, sameValue⟩ := agree _ _
    exact congrArg₂ _ sameValue (ih nextRelated (isMessage_tail message) (isMessage_tail message') (Nat.succ.inj length))

/-! ### What `START` reads and leaves (R191, R231, R271, R302) -/

/-- The direction of `START ENIGMA` and of `START M209` is checked and not read (R302). -/
theorem execStart_ignores_dir {machine : Byte} (notSigaba : machine.toNat ≤ 1) (s : State) :
    execStart machine 0#8 s = execStart machine 1#8 s := by
  by_cases idle : s.mode = .idle
  · obtain rfl | rfl : machine = 0#8 ∨ machine = 1#8 := by bv_omega
    · rw [Enigma.execStart_enigma (by decide) idle, Enigma.execStart_enigma (by decide) idle]
    · rw [M209.execStart_m209 (by decide) idle, M209.execStart_m209 (by decide) idle]
  · rw [Commands.execStart_busy (by omega) (by decide) idle, Commands.execStart_busy (by omega) (by decide) idle]

/-- A run that `START` began has passed the machine's checks. -/
theorem passed_of_startRun {s t started : State} {checks : List (Bool × Status)} (idle : s.mode = .idle)
    (answered : startRun s checks started = .next t) (running : t.mode ≠ .idle) :
    firstFailure checks = none ∧ t = { started with rsp := 0#32 } := by
  cases failure : firstFailure checks with
  | some code =>
    rw [startRun_refused failure] at answered
    cases answered
    exact absurd idle running
  | none =>
    rw [startRun_passed failure] at answered
    cases answered
    exact ⟨rfl, rfl⟩

theorem dir_le_of_started {machine dir : Byte} {s t : State} (started : Started machine dir s t) : dir.toNat ≤ 1 := by
  obtain ⟨idle, answered, running⟩ := started
  by_contra outside
  rw [exec, Commands.execStart_badSlot (.inr (Nat.lt_of_not_le outside))] at answered
  cases answered
  exact running idle

theorem started_enigma {dir : Byte} {s t : State} (started : Started 0#8 dir s t) :
    firstFailure (enigmaChecks s.par s.keys) = none ∧
    t = { s with mode := .enigma, eng := enigmaSetup s.keys, rsp := 0#32 } := by
  have dirOk := dir_le_of_started started
  obtain ⟨idle, answered, running⟩ := started
  exact passed_of_startRun idle ((Enigma.execStart_enigma dirOk idle).symm.trans answered) running

theorem started_m209 {dir : Byte} {s t : State} (started : Started 1#8 dir s t) :
    t = { s with mode := .m209, m209 := m209Setup s.par s.keys, rsp := 0#32 } := by
  have dirOk := dir_le_of_started started
  obtain ⟨idle, answered, running⟩ := started
  exact (passed_of_startRun idle ((M209.execStart_m209 dirOk idle).symm.trans answered) running).2

theorem started_sigaba {dir : Byte} {s t : State} (started : Started 2#8 dir s t) :
    t = { s with
      mode := if dir = 0#8 then .sigabaEnc else .sigabaDec, sig := sigabaSetup s.keys, rsp := 0#32 } := by
  have dirOk := dir_le_of_started started
  obtain ⟨idle, answered, running⟩ := started
  exact (passed_of_startRun idle ((Sigaba.execStart_sigaba dirOk idle).symm.trans answered) running).2

end Sys2Proof.Proofs.Runs

namespace Sys2Proof.Proofs.EnigmaRuns

open Sys2Proof Sys2Proof.Machine Sys2Proof.Claims Sys2Proof.Proofs.Runs

/-! ### The stack is an involution without fixed points (R195, R196) -/

/-- Slots 0 to 2, forward (R193). -/
def forwardPass (par : Parameters) (r : EnigmaRegs) (x : Letter) : Letter :=
  enigmaRotor par r 2 false (enigmaRotor par r 1 false (enigmaRotor par r 0 false x))

/-- Slots 2 to 0, backward (R193). -/
def backwardPass (par : Parameters) (r : EnigmaRegs) (x : Letter) : Letter :=
  enigmaRotor par r 0 true (enigmaRotor par r 1 true (enigmaRotor par r 2 true x))

theorem enigmaStack_eq (par : Parameters) (r : EnigmaRegs) (x : Letter) :
    enigmaStack par r x = backwardPass par r (reflectPass par r (forwardPass par r x)) := rfl

section WellFormed

variable {par : Parameters} {r : EnigmaRegs} (wellFormed : par.WellFormed)
include wellFormed

theorem enigmaWiring_isPermutation (rotor : BitVec 3) : (enigmaWiring par rotor).IsPermutation := by
  obtain ⟨permutations, -⟩ := wellFormed
  exact permutations (floorMod 5 rotor.toNat)

theorem enigmaRotor_backward_forward (k : Fin 3) (x : Letter) :
    enigmaRotor par r k true (enigmaRotor par r k false x) = x :=
  RotorPass.rotorPass_inverse_of_forward (enigmaWiring_isPermutation wellFormed _) _ _

theorem enigmaRotor_forward_backward (k : Fin 3) (x : Letter) :
    enigmaRotor par r k false (enigmaRotor par r k true x) = x :=
  RotorPass.rotorPass_forward_of_inverse (enigmaWiring_isPermutation wellFormed _) _ _

theorem backwardPass_forwardPass (x : Letter) : backwardPass par r (forwardPass par r x) = x := by
  simp only [backwardPass, forwardPass, enigmaRotor_backward_forward wellFormed]

theorem forwardPass_backwardPass (x : Letter) : forwardPass par r (backwardPass par r x) = x := by
  simp only [backwardPass, forwardPass, enigmaRotor_forward_backward wellFormed]

variable (inRange : r.erid.toNat < par.eRefl.length)
include inRange

theorem enigmaReflector_isReflector : Wiring.IsReflector (enigmaReflector par r.erid) := by
  obtain ⟨-, -, -, reflectors, -⟩ := wellFormed
  rw [enigmaReflector, List.getD_eq_getElem _ _ inRange]
  exact reflectors ⟨r.erid.toNat, inRange⟩

theorem reflectPass_reflectPass (x : Letter) : reflectPass par r (reflectPass par r x) = x :=
  ((enigmaReflector_isReflector wellFormed inRange).2 x).1

theorem reflectPass_ne (x : Letter) : reflectPass par r x ≠ x :=
  ((enigmaReflector_isReflector wellFormed inRange).2 x).2

theorem enigmaStack_enigmaStack (x : Letter) : enigmaStack par r (enigmaStack par r x) = x := by
  rw [enigmaStack_eq, enigmaStack_eq, forwardPass_backwardPass wellFormed, reflectPass_reflectPass wellFormed inRange,
    backwardPass_forwardPass wellFormed]

/-- A fixed point of the stack would be one of the reflector. -/
theorem enigmaStack_ne (x : Letter) : enigmaStack par r x ≠ x := by
  intro fixed
  have forward := congrArg (forwardPass par r) fixed
  rw [enigmaStack_eq, forwardPass_backwardPass wellFormed] at forward
  exact reflectPass_ne wellFormed inRange _ forward

end WellFormed

/-- The plugboard is read at the same registers before and after the step: `SYMBOL` does not write `PLUG` (R193). -/
theorem enigmaSymbol_output (par : Parameters) (r : EnigmaRegs) (x : Letter) :
    (enigmaSymbol par r x).2 = plugPass r (enigmaStack par { r with ep := stepEnigma par r } (plugPass r x)) := rfl

section Output

variable {par : Parameters} {r : EnigmaRegs} (wellFormed : par.WellFormed) (sound : EnigmaSound par r)
include wellFormed sound

theorem enigmaSymbol_involution (x : Letter) : (enigmaSymbol par r (enigmaSymbol par r x).2).2 = x := by
  obtain ⟨-, inRange, plugs⟩ := sound
  have stack := enigmaStack_enigmaStack (r := { r with ep := stepEnigma par r }) wellFormed inRange
  rw [enigmaSymbol_output, enigmaSymbol_output, (plugs _).2, stack, (plugs x).2]

theorem enigmaSymbol_ne (x : Letter) : (enigmaSymbol par r x).2 ≠ x := by
  obtain ⟨-, inRange, plugs⟩ := sound
  intro fixed
  have plugged := congrArg (plugPass r) fixed
  rw [enigmaSymbol_output, (plugs _).2] at plugged
  exact enigmaStack_ne (r := { r with ep := stepEnigma par r }) wellFormed inRange _ plugged

end Output

theorem responseData_ofNat (y : Letter) : (responseData (BitVec.ofNat 32 y.val)).toNat = y.val := by
  simp only [responseData, BitVec.extractLsb'_toNat, BitVec.toNat_ofNat, Nat.shiftRight_zero]
  omega

/-- Settles O40: the answer is the letter's image, which `enigmaSymbol_ne` keeps apart from it. -/
theorem enigmaNeverReturnsItsInput : Obligations.EnigmaNeverReturnsItsInput := by
  intro s t x wellFormed sound running letter answered same
  obtain ⟨enigmaSound, -, -⟩ := sound
  rw [symbolMeaning_enigma running x letter] at answered
  cases answered
  rw [responseData_ofNat] at same
  refine enigmaSymbol_ne wellFormed (enigmaSound running) (letterOf x) (Fin.ext ?_)
  rw [same, letterOf_val, Nat.mod_eq_of_lt (by omega)]

/-- Settles O41: the letters' map is an involution, and the direction is checked and not read. -/
theorem enigmaIsSelfReciprocal : Obligations.EnigmaIsSelfReciprocal := by
  refine ⟨fun s x wellFormed sound running letter => ?_, execStart_ignores_dir (by decide)⟩
  obtain ⟨enigmaSound, -, -⟩ := sound
  exact symbol_involution (symbolMeaning_enigma running) (enigmaSymbol_involution wellFormed (enigmaSound running)) letter

/-- Two sound Enigma runs in one state of the machine. -/
structure SameEnigma (t t' : State) : Prop where
  running : t.mode = .enigma
  running' : t'.mode = .enigma
  par : t'.par = t.par
  eng : t'.eng = t.eng
  wellFormed : t.par.WellFormed
  sound : EnigmaSound t.par t.eng

theorem SameEnigma.undoes {t t' : State} (same : SameEnigma t t') :
    GoOnTogether t t' (fun output output' => Function.LeftInverse output' output) SameEnigma := by
  obtain ⟨running, running', par, eng, wellFormed, sound⟩ := same
  refine ⟨_, _, _, _, symbolMeaning_enigma running, symbolMeaning_enigma running', ?_, fun rsp rsp' =>
    ⟨running, running', par, ?_, wellFormed, Soundness.enigmaSymbol_sound sound 0⟩⟩
  · rw [par, eng]
    exact enigmaSymbol_involution wellFormed sound
  · rw [par, eng]

/-- Settles O42: both runs start in one state of the machine. -/
theorem enigmaRoundTrip : Obligations.EnigmaRoundTrip := by
  intro s s' t t' dir dir' m wellFormed par keys started started' message
  obtain ⟨passed, rfl⟩ := started_enigma started
  obtain ⟨-, rfl⟩ := started_enigma started'
  have sound := Soundness.enigmaSetup_sound (Setup.enigmaKeysPass passed)
  refine runSymbols_roundTrip SameEnigma.undoes ?_ message
  exact ⟨rfl, rfl, par, congrArg enigmaSetup keys, wellFormed, sound⟩

/-- Two Enigma runs with one bank. -/
structure SameBank (s s' : State) : Prop where
  running : s.mode = .enigma
  running' : s'.mode = .enigma
  par : s'.par = s.par
  ep : s'.eng.ep = s.eng.ep
  ewid : s'.eng.ewid = s.eng.ewid

theorem SameBank.kept {s s' : State} (same : SameBank s s') :
    GoOnTogether s s' (fun _ _ => True) fun t t' => SameBank t t' ∧ t'.eng.ep = t.eng.ep := by
  obtain ⟨running, running', par, ep, ewid⟩ := same
  have stepped : stepEnigma s'.par s'.eng = stepEnigma s.par s.eng := by
    simp only [stepEnigma, par, ep, ewid]
  exact ⟨_, _, _, _, symbolMeaning_enigma running, symbolMeaning_enigma running', trivial, fun rsp rsp' =>
    ⟨⟨running, running', par, stepped, ewid⟩, stepped⟩⟩

/-- Settles O43: the step reads the bank and the catalogue alone. -/
theorem enigmaStepsIgnoreTheMessage : Obligations.EnigmaStepsIgnoreTheMessage := by
  intro s s' m m' running running' par ep ewid message message' length
  rw [enigmaPositions_eq, enigmaPositions_eq]
  exact valuesAfter_eq SameBank.kept ⟨running, running', par, ep, ewid⟩ message message' length

end Sys2Proof.Proofs.EnigmaRuns

namespace Sys2Proof.Proofs.M209Runs

open Sys2Proof Sys2Proof.Machine Sys2Proof.Claims Sys2Proof.Proofs.Runs

/-! ### M-209 runs (R235, R236) -/

theorem m209Output_m209Output (k : Nat) (p : Letter) : m209Output k (m209Output k p) = p := by
  have inner := floorMod_val 26 (25 + k - p.val)
  have outer := floorMod_val 26 (25 + k - (floorMod 26 (25 + k - p.val)).val)
  rw [m209Output, m209Output]
  exact Fin.ext (by omega)

/-- Settles O44: `(25 + K - p) mod 26` is an involution of p, and the direction is checked and not read. -/
theorem m209IsAnInvolution : Obligations.M209IsAnInvolution :=
  ⟨fun _ _ running letter => symbol_involution (symbolMeaning_m209 running) (m209Output_m209Output _) letter,
    execStart_ignores_dir (by decide)⟩

/-- Two M-209 runs with the same registers that K is computed from. -/
structure SameKeystream (s s' : State) : Prop where
  running : s.mode = .m209
  running' : s'.mode = .m209
  act : s'.m209.act = s.m209.act
  ps : s'.m209.ps = s.m209.ps
  la : s'.m209.la = s.m209.la
  lb : s'.m209.lb = s.m209.lb

theorem SameKeystream.keystream {s s' : State} (same : SameKeystream s s') : keystream s'.m209 = keystream s.m209 := by
  have active : barActive s'.m209 = barActive s.m209 := by
    funext b
    simp only [barActive, registerActive, same.act, same.ps, same.la, same.lb]
  rw [Machine.keystream, Machine.keystream, active]

/-- The keystream value and the counters go on alike, and the same K undoes itself. -/
theorem SameKeystream.kept {s s' : State} (same : SameKeystream s s') :
    GoOnTogether s s' (fun output output' => Function.LeftInverse output' output)
      fun t t' => SameKeystream t t' ∧ t'.m209.mkReg = t.m209.mkReg := by
  obtain ⟨running, running', act, ps, la, lb⟩ := same
  have sameK := SameKeystream.keystream ⟨running, running', act, ps, la, lb⟩
  refine ⟨_, _, _, _, symbolMeaning_m209 running, symbolMeaning_m209 running', ?_, fun rsp rsp' =>
    ⟨⟨running, running', congrArg stepM209 act, ps, la, lb⟩, congrArg (BitVec.ofNat 6) sameK⟩⟩
  rw [sameK]
  exact m209Output_m209Output _

/-- Settles O45: K reads the registers that `SameKeystream` names, and both runs start with the same. -/
theorem m209KeystreamAndRoundTrip : Obligations.M209KeystreamAndRoundTrip := by
  constructor
  · intro s s' m m' running running' act ps la lb message message' length
    rw [keystreamValues_eq, keystreamValues_eq]
    exact valuesAfter_eq (fun same => same.kept.mono (fun _ _ _ => trivial) fun _ _ => id)
      (SameKeystream.mk running running' act ps la lb) message message' length
  · intro s s' t t' dir dir' m par keys started started' message
    obtain rfl := started_m209 started
    obtain rfl := started_m209 started'
    have setup : m209Setup s'.par s'.keys = m209Setup s.par s.keys := by rw [par, keys]
    refine runSymbols_roundTrip (R := SameKeystream) (fun same => same.kept.mono (fun _ _ => id) fun _ _ => And.left) ?_
      message
    exact ⟨rfl, rfl, congrArg (·.act) setup, congrArg (·.ps) setup, congrArg (·.la) setup, congrArg (·.lb) setup⟩

end Sys2Proof.Proofs.M209Runs

namespace Sys2Proof.Proofs.SigabaRuns

open Sys2Proof Sys2Proof.Machine Sys2Proof.Claims Sys2Proof.Proofs.Runs

/-! ### SIGABA runs (R149, R287, R288) -/

/-- Two SIGABA runs, in either direction, with the same registers. -/
structure SameSigaba (s s' : State) : Prop where
  running : s.mode.isSigaba = true
  running' : s'.mode.isSigaba = true
  par : s'.par = s.par
  sig : s'.sig = s.sig

theorem SameSigaba.kept {s s' : State} (same : SameSigaba s s') :
    GoOnTogether s s' (fun _ _ => True) fun t t' => SameSigaba t t' ∧ t'.sig = t.sig := by
  obtain ⟨running, running', par, sig⟩ := same
  have advanced : sigabaAdvance s'.par s'.sig = sigabaAdvance s.par s.sig := by rw [par, sig]
  exact ⟨_, _, _, _, symbolMeaning_sigaba running, symbolMeaning_sigaba running', trivial, fun rsp rsp' =>
    ⟨⟨running, running', par, advanced⟩, advanced⟩⟩

/-- Settles O46: the advance reads the SIGABA registers and the catalogue alone. -/
theorem sigabaChainIgnoresTheMessage : Obligations.SigabaChainIgnoresTheMessage := by
  intro s s' m m' running running' par sig message message' length
  rw [sigabaStates_eq, sigabaStates_eq]
  exact valuesAfter_eq SameSigaba.kept ⟨running, running', par, sig⟩ message message' length

theorem largeWiring_isPermutation {par : Parameters} (wellFormed : par.WellFormed) (rotor : BitVec 4) :
    (largeWiring par rotor).IsPermutation := by
  obtain ⟨-, permutations, -⟩ := wellFormed
  exact permutations (floorMod 10 rotor.toNat)

theorem cipherRotor_decode_encode {par : Parameters} (wellFormed : par.WellFormed) (r : SigabaRegs) (x : Letter)
    (j : Fin 5) : cipherRotor par r true (cipherRotor par r false x j) j = x :=
  RotorPass.rotorPass_inverse_of_forward (largeWiring_isPermutation wellFormed _) _ _

/-- The cipher bank inverted undoes the cipher bank, rotor by rotor from the last (R281). -/
theorem cipherBank_decode_encode {par : Parameters} (wellFormed : par.WellFormed) (r : SigabaRegs) (x : Letter) :
    cipherBank par r true (cipherBank par r false x) = x := by
  change [4, 3, 2, 1, 0].foldl (cipherRotor par r true) ([0, 1, 2, 3, 4].foldl (cipherRotor par r false) x) = x
  simp only [List.foldl_cons, List.foldl_nil, cipherRotor_decode_encode wellFormed]

/-- An encode run and a decode run with the same registers. -/
structure EncodeDecode (t t' : State) : Prop where
  encoding : t.mode = .sigabaEnc
  decoding : t'.mode = .sigabaDec
  par : t'.par = t.par
  sig : t'.sig = t.sig
  wellFormed : t.par.WellFormed

theorem EncodeDecode.undoes {t t' : State} (pair : EncodeDecode t t') :
    GoOnTogether t t' (fun output output' => Function.LeftInverse output' output) EncodeDecode := by
  obtain ⟨encoding, decoding, par, sig, wellFormed⟩ := pair
  have running : t.mode.isSigaba = true := by rw [encoding]; rfl
  have running' : t'.mode.isSigaba = true := by rw [decoding]; rfl
  refine ⟨_, _, _, _, symbolMeaning_sigaba running, symbolMeaning_sigaba running', ?_, fun rsp rsp' =>
    ⟨encoding, decoding, par, ?_, wellFormed⟩⟩
  · rw [encoding, decoding, par, sig]
    exact cipherBank_decode_encode wellFormed t.sig
  · rw [par, sig]

/-- Settles O47: the two runs start with the same registers. -/
theorem sigabaRoundTrip : Obligations.SigabaRoundTrip := by
  intro s s' t t' m wellFormed par keys started started' message
  obtain rfl := started_sigaba started
  obtain rfl := started_sigaba started'
  refine runSymbols_roundTrip EncodeDecode.undoes ?_ message
  exact ⟨rfl, rfl, par, congrArg sigabaSetup keys, wellFormed⟩

/-- The control bank of a run goes on from k symbols, one step a symbol. -/
theorem sigabaStates_control {s : State} {start : Vector (BitVec 5) 5} {k : Nat} (running : s.mode.isSigaba = true)
    (here : IsControlAfter k start s.sig.kp s.sig.cad) {m : List Byte} (message : IsMessage m) :
    (sigabaStates s m).length = m.length ∧
    ∀ (n : Nat) (r : SigabaRegs), (sigabaStates s m)[n]? = some r → IsControlAfter (k + (n + 1)) start r.kp r.cad := by
  induction m generalizing s k with
  | nil => exact ⟨rfl, fun n r found => nomatch found⟩
  | cons x m ih =>
    have first := portStep_symbol (symbolMeaning_sigaba running) (message x List.mem_cons_self)
    have stepped : IsControlAfter (k + 1) start (sigabaAdvance s.par s.sig).kp (sigabaAdvance s.par s.sig).cad := by
      rw [Sigaba.sigabaAdvance_eq]
      exact Periods.isControlAfter_step here
    obtain ⟨length, later⟩ := ih (s := (portStep s (encode (.symbol x))).1) (k := k + 1) (by rw [first]; exact running)
      (by rw [first]; exact stepped) (isMessage_tail message)
    refine ⟨congrArg (· + 1) length, fun n r found => ?_⟩
    cases n with
    | zero =>
      rw [sigabaStates, first] at found
      cases found
      exact stepped
    | succ n =>
      have there := later n r found
      rwa [Nat.add_assoc, Nat.add_comm 1] at there

/-- Settles O38: `isControlAfter_step` is the step of both inductions. -/
theorem sigabaControlCadence : Obligations.SigabaControlCadence := by
  refine ⟨fun kp n inRange => Periods.isControlAfter_controlAfter inRange n,
    fun s m running inRange cad message => ?_⟩
  have here : IsControlAfter 0 s.sig.kp s.sig.kp s.sig.cad := cad ▸ Periods.isControlAfter_zero inRange
  obtain ⟨length, control⟩ := sigabaStates_control running here message
  refine ⟨length, fun n r found => ?_⟩
  have there := control n r found
  rwa [Nat.zero_add] at there

end Sys2Proof.Proofs.SigabaRuns

namespace Sys2Proof.Proofs.HostOperations

open Sys2Proof Sys2Proof.Machine Sys2Proof.Claims Sys2Proof.Proofs.Runs

/-! ### Codes of a text (R101, R310) -/

theorem codesOf_eq_some_iff {α : Type} {code : α → Option Byte} {xs : List α} {bs : List Byte} :
    codesOf code xs = some bs ↔ List.Forall₂ (fun x b => code x = some b) xs bs := by
  induction xs generalizing bs with
  | nil => simp [codesOf, eq_comm]
  | cons x xs ih =>
    rw [List.forall₂_cons_left_iff]
    cases head : code x <;> cases tail : codesOf code xs <;> simp [codesOf, head, tail, ← ih, eq_comm]

/-- A letter's code is a letter code, and the character of the code is the letter (R101). -/
theorem letterCode_eq_some {c : Char} {b : Byte} (coded : letterCode c = some b) : b.toNat ≤ 25 ∧ letterChar b = c := by
  unfold letterCode at coded
  split at coded
  · cases coded
    have value : (BitVec.ofNat 8 (c.toNat - 65)).toNat = c.toNat - 65 := by
      rw [BitVec.toNat_ofNat]
      omega
    refine ⟨by omega, ?_⟩
    rw [letterChar, value, Nat.sub_add_cancel (by omega), Char.ofNat_toNat]
  · cases coded

theorem letterCode_letterChar {b : Byte} (letter : b.toNat ≤ 25) : letterCode (letterChar b) = some b := by
  have value : (letterChar b).toNat = b.toNat + 65 := by
    rw [letterChar, Char.toNat_ofNat, if_pos (.inl (by omega))]
  rw [letterCode, value, if_pos (by omega), Nat.add_sub_cancel, BitVec.ofNat_toNat, BitVec.setWidth_eq]

theorem isMessage_of_codesOf {text : List Char} {m : List Byte} (coded : codesOf letterCode text = some m) :
    IsMessage m ∧ m.map letterChar = text := by
  have pairs := codesOf_eq_some_iff.mp coded
  induction pairs with
  | nil => exact ⟨nofun, rfl⟩
  | cons head tail ih =>
    obtain ⟨letter, char⟩ := letterCode_eq_some head
    obtain ⟨message, chars⟩ := ih (codesOf_eq_some_iff.mpr tail)
    exact ⟨List.forall_mem_cons.mpr ⟨letter, message⟩, congrArg₂ _ char chars⟩

theorem codesOf_map_letterChar {m : List Byte} (message : IsMessage m) :
    codesOf letterCode (m.map letterChar) = some m := by
  rw [codesOf_eq_some_iff, List.forall₂_map_left_iff, List.forall₂_same]
  exact fun b mem => letterCode_letterChar (message b mem)

theorem codesOf_length {α : Type} {code : α → Option Byte} {xs : List α} {bs : List Byte}
    (coded : codesOf code xs = some bs) : bs.length = xs.length :=
  (codesOf_eq_some_iff.mp coded).length_eq.symm

/-! ### The host checks and the sequence of commands (R310, R315) -/

theorem firstHostError_eq_none_iff {checks : List (Bool × HostError)} :
    firstHostError checks = none ↔ ∀ check ∈ checks, check.1 = false := by
  induction checks with
  | nil => simp [firstHostError]
  | cons check rest ih =>
    obtain ⟨fails, e⟩ := check
    cases fails <;> simp [firstHostError, ih]

theorem runSymbols_length (s : State) (m : List Byte) : (runSymbols s m).2.length = m.length := by
  induction m generalizing s with
  | nil => rfl
  | cons x m ih => exact congrArg (· + 1) (ih _)

/-- The state before `START`: the keys are written after `SRESET` (R310). -/
def keyedState (s : State) (keyWrites : List Instr) : State := issueAll s (.sreset :: keyWrites)

/-- The state and the response after `START`. -/
def startAnswer (s : State) (keyWrites : List Instr) (start : Instr) : State × Word32 :=
  portStep (keyedState s keyWrites) (encode start)

section HostOperation

variable {s : State} {start : Instr}

/-- A `START` that fails gives its status and no text (R315). -/
theorem hostRun_failed {writes : List Instr} (failed : responseStatus (startAnswer s writes start).2 ≠ 0#8)
    (m : List Byte) :
    (hostRun s writes start m).2 = .error (.block (responseStatus (startAnswer s writes start).2)) :=
  congrArg Prod.snd (if_pos failed)

/-- A `START` that succeeds gives a whole text (R315). -/
theorem hostRun_done {writes : List Instr} (accepted : responseStatus (startAnswer s writes start).2 = 0#8)
    (m : List Byte) :
    (hostRun s writes start m).2 = .ok ((runSymbols (startAnswer s writes start).1 m).2.map letterChar) :=
  congrArg Prod.snd (if_neg (not_not_intro accepted))

variable {checks : List (Bool × HostError)} {keyWrites : Option (List Instr)} {text : List Char}

theorem hostOperation_refused {e : HostError} (refused : firstHostError checks = some e) :
    hostOperation s checks keyWrites start text = (s, .error (.host e)) := by
  simp only [hostOperation, refused]

theorem hostOperation_run {writes : List Instr} {m : List Byte} (passed : firstHostError checks = none)
    (written : keyWrites = some writes) (coded : codesOf letterCode text = some m) :
    hostOperation s checks keyWrites start text = hostRun s writes start m := by
  simp only [hostOperation, passed, written, coded]

/-- A host operation is refused by the host, or runs the commands (R315). -/
theorem hostOperation_cases (s : State) (checks : List (Bool × HostError)) (keyWrites : Option (List Instr))
    (start : Instr) (text : List Char) :
    (∃ e, hostOperation s checks keyWrites start text = (s, .error (.host e))) ∨
    ∃ writes m, firstHostError checks = none ∧ keyWrites = some writes ∧ codesOf letterCode text = some m := by
  cases passed : firstHostError checks with
  | some e => exact .inl ⟨e, hostOperation_refused passed⟩
  | none =>
    cases keyWrites with
    | none => exact .inl ⟨.unknownName, by simp only [hostOperation, passed]⟩
    | some writes =>
      cases coded : codesOf letterCode text with
      | none => exact .inl ⟨.unknownName, by simp only [hostOperation, passed, coded]⟩
      | some m => exact .inr ⟨writes, m, rfl, rfl, rfl⟩

/-- What an operation that gave a text has passed, and what the text is. -/
theorem of_hostOperation_eq_ok {c : List Char} (done : (hostOperation s checks keyWrites start text).2 = .ok c) :
    ∃ writes m, firstHostError checks = none ∧ keyWrites = some writes ∧ codesOf letterCode text = some m ∧
      responseStatus (startAnswer s writes start).2 = 0#8 ∧
      c = (runSymbols (startAnswer s writes start).1 m).2.map letterChar := by
  obtain ⟨e, refused⟩ | ⟨writes, m, passed, written, coded⟩ := hostOperation_cases s checks keyWrites start text
  · rw [refused] at done
    cases done
  · rw [hostOperation_run passed written coded] at done
    by_cases accepted : responseStatus (startAnswer s writes start).2 = 0#8
    · rw [hostRun_done accepted] at done
      cases done
      exact ⟨writes, m, passed, written, coded, accepted, rfl⟩
    · rw [hostRun_failed accepted] at done
      cases done

theorem hostOperation_host_error {e : HostError}
    (failed : (hostOperation s checks keyWrites start text).2 = .error (.host e)) :
    (hostOperation s checks keyWrites start text).1 = s := by
  obtain ⟨e', refused⟩ | ⟨writes, m, passed, written, coded⟩ := hostOperation_cases s checks keyWrites start text
  · rw [refused]
  · rw [hostOperation_run passed written coded] at failed
    by_cases accepted : responseStatus (startAnswer s writes start).2 = 0#8
    · rw [hostRun_done accepted] at failed
      cases failed
    · rw [hostRun_failed accepted] at failed
      cases failed

end HostOperation

/-- Settles O60: a text comes from a run, which answers one letter per symbol, and a host error from no command. -/
theorem hostOperationsFailFast : Obligations.HostOperationsFailFast := by
  intro s checks keyWrites start text
  refine ⟨fun c done => ?_, fun e => hostOperation_host_error, fun check mem fails => ?_⟩
  · obtain ⟨writes, m, -, -, coded, -, rfl⟩ := of_hostOperation_eq_ok done
    rw [List.length_map, runSymbols_length, codesOf_length coded]
  · cases refused : firstHostError checks with
    | some e => exact ⟨e, hostOperation_refused refused⟩
    | none =>
      have passes := firstHostError_eq_none_iff.mp refused check mem
      rw [fails] at passes
      cases passes

/-! ### `ENIGMA.DECODE` (R311) -/

/-- An operation depends on its `START` through what the port answers to it. -/
theorem hostOperation_congr {start start' : Instr} (same : ∀ k, portStep k (encode start) = portStep k (encode start'))
    (s : State) (checks : List (Bool × HostError)) (keyWrites : Option (List Instr)) (text : List Char) :
    hostOperation s checks keyWrites start text = hostOperation s checks keyWrites start' text := by
  simp only [hostOperation, hostRun, same]

/-- Settles O58: the port answers both directions of `START ENIGMA` alike. -/
theorem enigmaDecodeIsEncode : Obligations.EnigmaDecodeIsEncode := by
  intro s a
  refine hostOperation_congr (fun k => ?_) s _ _ _
  have sameStep : commandStep (encode (.start 0#8 1#8)) k = commandStep (encode (.start 0#8 0#8)) k := by
    rw [Decoder.commandStep_encode, Decoder.commandStep_encode]
    exact (execStart_ignores_dir (by decide) k).symm
  simp only [portStep, sameStep]

/-! ### The keys after `SRESET` and the key writes (R310) -/

/-- A key write with no run leaves keys that depend on the keys before it alone. -/
theorem writeKey_idle (inRange : Bool) (keys : KeyRegs) (update : KeyRegs → KeyRegs) :
    ∃ keys' rsp, ∀ s : State, s.mode = .idle → s.keys = keys →
      writeKey s inRange (update s.keys) = .next { s with keys := keys', rsp := rsp } := by
  cases inRange with
  | false =>
    refine ⟨keys, 0x02000000#32, fun s _ same => ?_⟩
    rw [writeKey_badSlot, ← same]
  | true =>
    refine ⟨update keys, 0#32, fun s idle same => ?_⟩
    rw [writeKey_done idle, same]

/-- A SIGABA key write (R260–R265). -/
def IsSigabaKeyWrite : Instr → Prop
  | .sigCrot _ _ | .sigKrot _ _ | .sigIrot _ _ | .sigInd _ _ | .sigKpos _ _ | .sigIpos _ _ => True
  | _ => False

theorem exec_sigabaKeyWrite_idle {i : Instr} (write : IsSigabaKeyWrite i) (keys : KeyRegs) :
    ∃ keys' rsp, ∀ s : State, s.mode = .idle → s.keys = keys →
      exec i s = .next { s with keys := keys', rsp := rsp } := by
  cases i with
  | sigCrot slot value =>
    exact writeKey_idle (slot.toNat ≤ 4) keys fun k => { k with scrot := k.scrot.setIfInBounds slot.toNat value }
  | sigKrot slot value =>
    exact writeKey_idle (slot.toNat ≤ 4) keys fun k => { k with skrot := k.skrot.setIfInBounds slot.toNat value }
  | sigIrot slot value =>
    exact writeKey_idle (slot.toNat ≤ 4) keys fun k => { k with sirot := k.sirot.setIfInBounds slot.toNat value }
  | sigInd slot value =>
    exact writeKey_idle (slot.toNat ≤ 4) keys fun k => { k with sind := k.sind.setIfInBounds slot.toNat value }
  | sigKpos slot value =>
    exact writeKey_idle (slot.toNat ≤ 4) keys fun k => { k with skpos := k.skpos.setIfInBounds slot.toNat value }
  | sigIpos slot value =>
    exact writeKey_idle (slot.toNat ≤ 4) keys fun k => { k with sipos := k.sipos.setIfInBounds slot.toNat value }
  | _ => cases write

theorem issueAll_cons (s : State) (i : Instr) (is : List Instr) :
    issueAll s (i :: is) = issueAll (portStep s (encode i)).1 is := rfl

/-- Key writes on idle blocks with the same keys leave the same keys. -/
theorem issueAll_sigabaKeyWrites {writes : List Instr} (allWrites : ∀ i ∈ writes, IsSigabaKeyWrite i)
    (keys : KeyRegs) : ∃ keys', ∀ s : State, s.mode = .idle → s.keys = keys →
      (issueAll s writes).mode = .idle ∧ (issueAll s writes).par = s.par ∧ (issueAll s writes).keys = keys' := by
  induction writes generalizing keys with
  | nil => exact ⟨keys, fun s idle same => ⟨idle, rfl, same⟩⟩
  | cons i writes ih =>
    obtain ⟨nextKeys, rsp, meaning⟩ := exec_sigabaKeyWrite_idle (allWrites i List.mem_cons_self) keys
    obtain ⟨keys', rest⟩ := ih (fun j mem => allWrites j (List.mem_cons_of_mem i mem)) nextKeys
    refine ⟨keys', fun s idle same => ?_⟩
    rw [issueAll_cons, portStep_encode (meaning s idle same)]
    exact rest _ idle rfl

/-- The block before `START` is idle, and its keys depend on the parameters and the key writes alone. -/
theorem keyedState_sigaba {writes : List Instr} (allWrites : ∀ i ∈ writes, IsSigabaKeyWrite i) (par : Parameters) :
    ∃ keys, ∀ s : State, s.par = par →
      (keyedState s writes).mode = .idle ∧ (keyedState s writes).par = par ∧ (keyedState s writes).keys = keys := by
  obtain ⟨keys, written⟩ := issueAll_sigabaKeyWrites allWrites (KeyRegs.afterReset par)
  refine ⟨keys, fun s same => ?_⟩
  subst same
  have reset : portStep s (encode .sreset) = (s.resetBlock, 0#32) :=
    portStep_encode (congrArg Host.Outcome.next (Port.resetBlock_withResponse s))
  rw [keyedState, issueAll_cons, reset]
  exact written s.resetBlock rfl rfl

/-! ### The key writes are SIGABA key writes (R114, R313) -/

theorem mem_of_expandNames {α : Type} {n : Nat} {code : α → Option Byte} {build : Byte → Byte → Instr} {names : List α}
    {is : List Instr} (expanded : expandNames n code build names = some is) {i : Instr} (mem : i ∈ is) :
    ∃ slot value, i = build slot value := by
  unfold expandNames at expanded
  split at expanded
  · obtain ⟨codes, -, rfl⟩ := Option.map_eq_some_iff.mp expanded
    obtain ⟨x, -, rfl⟩ := List.mem_map.mp mem
    exact ⟨_, _, rfl⟩
  · cases expanded

theorem mem_of_joinAll {groups : List (Option (List Instr))} {is : List Instr} (joined : joinAll groups = some is)
    {i : Instr} (mem : i ∈ is) : ∃ group, some group ∈ groups ∧ i ∈ group := by
  induction groups generalizing is with
  | nil => cases joined; cases mem
  | cons head groups ih =>
    cases head with
    | none => simp [joinAll] at joined
    | some first =>
      cases later : joinAll groups with
      | none => simp [joinAll, later] at joined
      | some rest =>
        obtain rfl : first ++ rest = is := by simpa only [joinAll, later, Option.some.injEq] using joined
        rcases List.mem_append.mp mem with here | there
        · exact ⟨first, List.mem_cons_self, here⟩
        · obtain ⟨group, known, inside⟩ := ih later there
          exact ⟨group, List.mem_cons_of_mem _ known, inside⟩

/-- The key writes of R313. -/
def sigabaKeyWrites (a : SigabaArgs) : Option (List Instr) :=
  joinAll
    [expandPseudo (.sigCrots a.cipherRotorKeys), expandPseudo (.sigKrots a.controlRotorKeys),
      expandPseudo (.sigIrots a.indexRotorKeys), expandPseudo (.sigInds a.indicatorKey),
      expandPseudo (.sigKposs a.controlPositionKey), expandPseudo (.sigIposs a.indexPositionKey)]

theorem isSigabaKeyWrite_of_mem {a : SigabaArgs} {writes : List Instr} (written : sigabaKeyWrites a = some writes) :
    ∀ i ∈ writes, IsSigabaKeyWrite i := by
  intro i mem
  obtain ⟨group, known, inside⟩ := mem_of_joinAll written mem
  simp only [List.mem_cons, List.not_mem_nil, or_false] at known
  rcases known with known | known | known | known | known | known
  all_goals
    obtain ⟨slot, value, rfl⟩ := mem_of_expandNames known.symm inside
    trivial

/-! ### `SIGABA.DECODE` of `SIGABA.ENCODE` (R314) -/

section StartSigaba

variable {s : State} {dir : Byte} (idle : s.mode = .idle) (dirOk : dir.toNat ≤ 1)
include idle dirOk

/-- `START SIGABA` answers `OK` only with every check passed (R270). -/
theorem passed_of_start_accepted (accepted : responseStatus (portStep s (encode (.start 2#8 dir))).2 = 0#8) :
    firstFailure (sigabaChecks s.keys) = none := by
  cases failure : firstFailure (sigabaChecks s.keys) with
  | none => rfl
  | some code =>
    have answered : exec (.start 2#8 dir) s = _ := (Sigaba.execStart_sigaba dirOk idle).trans (startRun_refused failure)
    rw [portStep_encode answered, responseStatus_responseWord] at accepted
    have error : code = .ok := Status.code_injective accepted
    have noOk : ∀ check ∈ sigabaChecks s.keys, check.2 ≠ .ok := by simp [sigabaChecks]
    exact absurd error (noOk _ (firstFailure_mem failure))

theorem startAnswer_of_passed (passed : firstFailure (sigabaChecks s.keys) = none) :
    Started 2#8 dir s (portStep s (encode (.start 2#8 dir))).1 ∧
      responseStatus (portStep s (encode (.start 2#8 dir))).2 = 0#8 := by
  have answered : exec (.start 2#8 dir) s = _ := (Sigaba.execStart_sigaba dirOk idle).trans (startRun_passed passed)
  rw [portStep_encode answered]
  refine ⟨⟨idle, answered, ?_⟩, (by decide : responseStatus 0#32 = 0#8)⟩
  by_cases enc : dir = 0#8 <;> simp [enc]

end StartSigaba

/-- A run answers letters with letters (R345). -/
theorem runSymbols_isMessage {s : State} (running : s.mode ≠ .idle) {m : List Byte} (message : IsMessage m) :
    IsMessage (runSymbols s m).2 := by
  induction m generalizing s with
  | nil => exact nofun
  | cons x m ih =>
    obtain ⟨t, y, answered, mode, answer⟩ := Soundness.execSymbol_running running (message x List.mem_cons_self)
    have step : portStep s (encode (.symbol x)) = (t, t.rsp) := portStep_encode answered
    simp only [runSymbols, step, answer, cField_ofNat]
    exact List.forall_mem_cons.mpr ⟨toNat_ofNat_le y, ih (mode ▸ running) (isMessage_tail message)⟩

/-- The checks of R313 read the text only for letters. -/
theorem sigabaHostChecks_text {a : SigabaArgs} {c : List Char} (passed : firstHostError (sigabaHostChecks a) = none)
    (letters : anyUncoded letterCode c = false) : firstHostError (sigabaHostChecks { a with text := c }) = none := by
  rw [firstHostError_eq_none_iff] at passed ⊢
  obtain ⟨-, rest⟩ := List.forall_mem_cons.mp passed
  exact List.forall_mem_cons.mpr ⟨letters, rest⟩

theorem anyUncoded_map_letterChar {m : List Byte} (message : IsMessage m) :
    anyUncoded letterCode (m.map letterChar) = false := by
  rw [anyUncoded, List.any_eq_false]
  intro c mem
  obtain ⟨b, known, rfl⟩ := List.mem_map.mp mem
  simp [letterCode_letterChar (message b known)]

/-- Settles O59: both runs start from the same keys, the ciphertext passes the host checks, and the runs undo each other
by O47's round trip. -/
theorem sigabaHostRoundTrip : Obligations.SigabaHostRoundTrip := by
  intro s s' a c wellFormed par encoded
  obtain ⟨writes, m, passed, written, coded, accepted, rfl⟩ := of_hostOperation_eq_ok encoded
  obtain ⟨message, chars⟩ := isMessage_of_codesOf coded
  obtain ⟨keys, keyed⟩ := keyedState_sigaba (isSigabaKeyWrite_of_mem written) s.par
  obtain ⟨idle, parKept, sameKeys⟩ := keyed s rfl
  obtain ⟨idle', parKept', sameKeys'⟩ := keyed s' par
  have checked := passed_of_start_accepted idle (by decide) accepted
  have checked' : firstFailure (sigabaChecks (keyedState s' writes).keys) = none := by rwa [sameKeys', ← sameKeys]
  obtain ⟨started, -⟩ := startAnswer_of_passed idle (dir := 0#8) (by decide) checked
  obtain ⟨started', accepted'⟩ := startAnswer_of_passed idle' (dir := 1#8) (by decide) checked'
  have cipher : IsMessage (runSymbols (startAnswer s writes (.start 2#8 0#8)).1 m).2 :=
    runSymbols_isMessage started.2.2 message
  have roundTrip : (runSymbols (startAnswer s' writes (.start 2#8 1#8)).1
      (runSymbols (startAnswer s writes (.start 2#8 0#8)).1 m).2).2 = m :=
    SigabaRuns.sigabaRoundTrip _ _ _ _ m (parKept ▸ wellFormed) (parKept'.trans parKept.symm)
      (sameKeys'.trans sameKeys.symm) started started' message
  have decoded : sigabaDecode s' { a with text := _ } = hostRun s' writes (.start 2#8 1#8) _ :=
    hostOperation_run (sigabaHostChecks_text passed (anyUncoded_map_letterChar cipher)) written
      (codesOf_map_letterChar cipher)
  rw [decoded, hostRun_done accepted', roundTrip, chars]

end Sys2Proof.Proofs.HostOperations
